-- ==== Sys2Proof/Word.lean ====
section
/-! DEFINITION. The widths of the block's words (spec 00_scope.md R8 to R12). A single bit is a `Bool`,
`true` for the source's `true` and for 1 (R11). All words are unsigned and nothing is sign-extended (R11). -/

namespace Sys2Proof

/-- A command word or a read-port word: 32 bits (R9, R35, R50). -/
abbrev Word := BitVec 32

/-- A symbol code: 21 bits, compared for equality only (R10). -/
abbrev Symbol := BitVec 21

/-- A 6-bit group value, which is also a charset index (R8, R21). -/
abbrev Value := BitVec 6

/-- A read-port address: 2 bits (R35). -/
abbrev ReadAddr := BitVec 2

/-- A charset of 64 symbols; position `i` represents the 6-bit value `i` (R8, R21). -/
abbrev Charset := Vector Symbol 64

end Sys2Proof
end

