-- ==== Sys2Proof/Syntax.lean ====
section
/-! DEFINITION. The commands of `W64CMD`, one constructor per row of spec/opcode_table.json
(30_encoding.md R53). Each operand has exactly its field's width, so every operand value a word can carry is a
term here and every term is a command (30_encoding.md R52). -/

namespace Sys2Proof

/-- A command (30_encoding.md R53). -/
inductive Instr where
  /-- NOP, 43_control.md R100. -/
  | nop
  /-- CS_CLEAR, 40_charset.md R65. -/
  | csClear
  /-- CS_WRITE IDX, SYM, 40_charset.md R66. -/
  | csWrite (idx : Value) (sym : Symbol)
  /-- ENC_START, 41_encoder.md R77. -/
  | encStart
  /-- ENC_BIT B, 41_encoder.md R78. -/
  | encBit (b : Bool)
  /-- ENC_END, 41_encoder.md R79. -/
  | encEnd
  /-- DEC_START, 42_decoder.md R90. -/
  | decStart
  /-- DEC_SYM SYM, 42_decoder.md R92. -/
  | decSym (sym : Symbol)
  /-- DEC_END, 42_decoder.md R94. -/
  | decEnd
  /-- ERR_CLEAR, 43_control.md R101. -/
  | errClear
  deriving DecidableEq, Repr

end Sys2Proof
end

