-- ==== Sys2Proof/Decode.lean ====
section
/-! DEFINITION. Command words: the fields of 30_encoding.md R51 and R52, the opcode map of R53, the decode function of
R54, total on all 2^32 words and rejecting by name (R55), and after it the encoder (the word column of R58).
A word moves whole on its port, so no byte order applies (20_memory.md R41). -/

namespace Sys2Proof

/-! ### Fields (R50, R52) -/

/-- `OP = w[31:28]` (R50). -/
def opField (w : Word) : BitVec 4 := w.extractLsb' 28 4

/-- `IDX = w[26:21]` (R52). -/
def idxField (w : Word) : Value := w.extractLsb' 21 6

/-- `SYM = w[20:0]` (R52). -/
def symField (w : Word) : Symbol := w.extractLsb' 0 21

/-- `B = w[0]` (R52). -/
def bitField (w : Word) : Bool := w.getLsbD 0

/-! ### Formats and the opcode map (R51, R53) -/

/-- The four formats of R51. -/
inductive Format where
  | N
  | IS
  | S
  | B
  deriving DecidableEq, Repr

/-- The bits a format reserves, that must be zero: the columns R51 marks 0. -/
def Format.reserved : Format → Word
  | .N => 0x0FFFFFFF
  | .IS => 0x08000000
  | .S => 0x0FE00000
  | .B => 0x0FFFFFFE

/-- The command names of R53. -/
inductive Mnemonic where
  | NOP
  | CS_CLEAR
  | CS_WRITE
  | ENC_START
  | ENC_BIT
  | ENC_END
  | DEC_START
  | DEC_SYM
  | DEC_END
  | ERR_CLEAR
  deriving DecidableEq, Repr

/-- One row of the opcode map (R53); the columns match and mask are `pattern` and `mask`. -/
structure Row where
  op : BitVec 4
  mnemonic : Mnemonic
  format : Format
  pattern : Word
  mask : Word
  deriving DecidableEq, Repr

/-- A word is the row's command when `(w & mask) == match` (R53). -/
def Row.selects (r : Row) (w : Word) : Bool := w &&& r.mask == r.pattern

/-- The opcode map, row by row as R53 gives it. -/
def opcodeMap : List Row :=
  [ ⟨0x0, .NOP, .N, 0x00000000, 0xFFFFFFFF⟩,
    ⟨0x1, .CS_CLEAR, .N, 0x10000000, 0xFFFFFFFF⟩,
    ⟨0x2, .CS_WRITE, .IS, 0x20000000, 0xF8000000⟩,
    ⟨0x3, .ENC_START, .N, 0x30000000, 0xFFFFFFFF⟩,
    ⟨0x4, .ENC_BIT, .B, 0x40000000, 0xFFFFFFFE⟩,
    ⟨0x5, .ENC_END, .N, 0x50000000, 0xFFFFFFFF⟩,
    ⟨0x6, .DEC_START, .N, 0x60000000, 0xFFFFFFFF⟩,
    ⟨0x7, .DEC_SYM, .S, 0x70000000, 0xFFE00000⟩,
    ⟨0x8, .DEC_END, .N, 0x80000000, 0xFFFFFFFF⟩,
    ⟨0x9, .ERR_CLEAR, .N, 0x90000000, 0xFFFFFFFF⟩ ]

/-- The command a mnemonic and a word's fields make: "return r.mnemonic with fields of rule R52" (R54). -/
def withFields (m : Mnemonic) (w : Word) : Instr :=
  match m with
  | .NOP => .nop
  | .CS_CLEAR => .csClear
  | .CS_WRITE => .csWrite (idxField w) (symField w)
  | .ENC_START => .encStart
  | .ENC_BIT => .encBit (bitField w)
  | .ENC_END => .encEnd
  | .DEC_START => .decStart
  | .DEC_SYM => .decSym (symField w)
  | .DEC_END => .decEnd
  | .ERR_CLEAR => .errClear

/-- A command's name in the opcode map. -/
def Instr.mnemonic : Instr → Mnemonic
  | .nop => .NOP
  | .csClear => .CS_CLEAR
  | .csWrite _ _ => .CS_WRITE
  | .encStart => .ENC_START
  | .encBit _ => .ENC_BIT
  | .encEnd => .ENC_END
  | .decStart => .DEC_START
  | .decSym _ => .DEC_SYM
  | .decEnd => .DEC_END
  | .errClear => .ERR_CLEAR

/-! ### Decoding (R54, R55) -/

/-- Why a word is illegal: the two causes of R55. -/
inductive IllegalWord where
  /-- OP is 0xA to 0xF. -/
  | reservedOpcode
  /-- OP is assigned and a reserved field of its format is not zero. -/
  | reservedField
  deriving DecidableEq, Repr

/-- The result of decoding: `Cmd | Illegal` (R54). -/
inductive Decoded where
  | cmd (i : Instr)
  | illegal (why : IllegalWord)
  deriving DecidableEq, Repr

/-- The row of an opcode, if the opcode is assigned (R53). -/
def rowOf (op : BitVec 4) : Option Row := opcodeMap.find? (fun r => r.op == op)

/-- The decode function (R54): total on all words; the row with the word's OP is tried, and a word its mask does not
match is illegal. -/
def decode (w : Word) : Decoded :=
  match rowOf (opField w) with
  | some r => if r.selects w then .cmd (withFields r.mnemonic w) else .illegal .reservedField
  | none => .illegal .reservedOpcode

/-! ### Encoding (the word column of R58) -/

/-- The word of a command (R58, R66, R78, R92). -/
def encode : Instr → Word
  | .nop => 0x00000000
  | .csClear => 0x10000000
  | .csWrite idx sym => 0x20000000 ||| (idx.setWidth 32 <<< 21) ||| sym.setWidth 32
  | .encStart => 0x30000000
  | .encBit b => 0x40000000 ||| (BitVec.ofBool b).setWidth 32
  | .encEnd => 0x50000000
  | .decStart => 0x60000000
  | .decSym sym => 0x70000000 ||| sym.setWidth 32
  | .decEnd => 0x80000000
  | .errClear => 0x90000000

/-! ### The host's reading of a table word -/

/-- The 32-bit command word of a table row whose `nbits` bits are `w`; the bits above `nbits` are 0. Every row of the
table has 32 bits (R57). -/
def tableWord (nbits w : Nat) : Word := BitVec.ofNat 32 (w % 2 ^ nbits)

/-- The command the decoder reads from a table row's word, `none` where it is illegal. -/
def decodeTableWord (nbits w : Nat) : Option Instr :=
  match decode (tableWord nbits w) with
  | .cmd i => some i
  | .illegal _ => none

end Sys2Proof
end

