-- ==== Sys2Proof/Config.lean ====
section
/-! DEFINITION. What an implementation fixes (spec 00_scope.md R9) and the one free value (70_reset_and_hazards.md R115). -/

namespace Sys2Proof

/-- The open parameter of the block: `zmax` is `ZMAX`, the largest count of pending zero bits the decoder holds
(R9, 92_eei_decisions.md D11). "The model takes `ZMAX : Nat` (`ZMAX ≥ 6`) as an argument": the argument stands in
`State.config`, which no step writes. -/
structure Config where
  zmax : Nat
  deriving DecidableEq, Repr

/-- The spec requires `ZMAX ≥ 6` (R9). -/
abbrev Config.Legal (c : Config) : Prop := 6 ≤ c.zmax

/-- The spec's reference value, `2^32 − 1` (R9). DESIGN CHOICE: `State.reset` holds this one (log entry 2). -/
def Config.reference : Config := { zmax := 2 ^ 32 - 1 }

/-- The free values: the `n`-th symbol drawn for a charset entry that reset leaves unspecified (R14, R24, R115,
93_implementation_defined.md U10). It has no body, so nothing can be proved about its values (log entry 3). -/
opaque Config.freeSymbol : Nat → Symbol

end Sys2Proof
end

