-- ==== Sys2Proof/Machine/State.lean ====
section
/-! DEFINITION. The state of the block (spec 10_state.md R17), its reset value (70_reset_and_hazards.md R115), and the
reasons a step could stop. Every field is plain data. -/

namespace Sys2Proof.Machine

/-- `D_STATE` (R28). The value 3 is never reached, so the type has three names (93_implementation_defined.md U15). -/
inductive DecoderState where
  | idle
  | run
  | fail
  deriving DecidableEq, Repr

/-- `DEC_RESULT` (R33): 0 NONE, 1 OK, 2 MALFORMED, 3 OVERFLOW. -/
inductive DecResult where
  | none
  | ok
  | malformed
  | overflow
  deriving DecidableEq, Repr

/-- The errors of 60_exceptions.md R105. They are recorded in STATUS and never stop the block (R106). -/
inductive ErrorCause where
  | illegal
  | invalidCharset
  | sequence
  | malformedInput
  | runOverflow
  deriving DecidableEq, Repr

/-- One item of the encoder output stream: a 6-bit value and its symbol (R34). -/
structure EoItem where
  value : Value
  symbol : Symbol
  deriving DecidableEq, Repr

/-- What the host does at one of the block's inputs (R35): it presents a command word, reads an address of the read
port, or asserts reset. -/
inductive HostInput where
  | command (w : Word)
  | read (a : ReadAddr)
  | reset
  deriving DecidableEq, Repr

/-- What the read port returned for one read (R35). -/
structure ReadResult where
  addr : ReadAddr
  data : Word
  deriving DecidableEq, Repr

/-- The state. The fields from `cs` to `dout` are the spec's table (R17) under the spec's names; `config`, `hostIn`,
`readOut` and `draws` are the model's own (log entries 1 to 3). -/
structure State where
  /-- The parameter `ZMAX` (00_scope.md R9). No step writes it. -/
  config : Config
  /-- `CS` (R21). -/
  cs : Charset
  /-- `CSW`, the written mask (R22). -/
  csw : BitVec 64
  /-- `E_BUSY` (R25). -/
  eBusy : Bool
  /-- `E_ACC` (R26). -/
  eAcc : BitVec 6
  /-- `E_CNT`, 0 to 5 (R26); R27 allows `Fin 6`. -/
  eCnt : Fin 6
  /-- `D_STATE` (R28). -/
  dState : DecoderState
  /-- `D_LEAD` (R29). -/
  dLead : Bool
  /-- `D_HAS1` (R30). -/
  dHas1 : Bool
  /-- `D_Z`, a counter 0 to `ZMAX` (R31). -/
  dZ : Nat
  /-- `ERRBITS`, STATUS[12:8] (R33). -/
  errBits : BitVec 5
  /-- `LAST_ERR` (R33); `none` is code 0, "no error since reset or ERR_CLEAR" (60_exceptions.md R105). -/
  lastErr : Option ErrorCause
  /-- `DEC_RESULT` (R33). -/
  decResult : DecResult
  /-- `EO`, oldest item first (R34). -/
  eo : List EoItem
  /-- `DO`, oldest bit first (R34). -/
  dout : List Bool
  /-- What the host does next, oldest first: the command port, the read port and the reset input (R35, R42). -/
  hostIn : List HostInput
  /-- What the read port has returned, oldest first (R35). -/
  readOut : List ReadResult
  /-- How many free symbols have been drawn (R115). -/
  draws : Nat
  deriving DecidableEq, Repr

/-- Why a step could stop the machine. It has no constructor: no rule of the spec stops the block ("an error never
stops, locks or resets the block, and never blocks the command port", 60_exceptions.md R106), so nothing raises one. -/
inductive Fault where
  deriving DecidableEq, Repr

/-- Why the model could give an instruction no meaning. -/
inductive Refusal where
  /-- An instruction without a meaning; raised only by an arm of `exec` that rejects by name, of which there is none. Safe:
  a refused step proves nothing. -/
  | notModelled (mnemonic : String)
  deriving DecidableEq, Repr

/-- The contents of `CS` after a reset: unspecified, so 64 free symbols drawn from number `k` on (R24, R115). -/
def freeCharset (k : Nat) : Charset := Vector.ofFn fun i => Config.freeSymbol (k + i.val)

/-- The machine right after reset (R17, R115). The host's queue and the streams are empty. -/
def State.reset : State where
  config := Config.reference
  cs := freeCharset 0
  csw := 0
  eBusy := false
  eAcc := 0
  eCnt := 0
  dState := .idle
  dLead := false
  dHas1 := false
  dZ := 0
  errBits := 0
  lastErr := none
  decResult := .none
  eo := []
  dout := []
  hostIn := []
  readOut := []
  draws := 64

end Sys2Proof.Machine
end

