-- ==== Sys2Proof/Machine/Flags.lean ====
section
/-! DEFINITION. The flags of the block: `CS_VALID` (spec 10_state.md R23), the error codes and sticky bits
(60_exceptions.md R105), STATUS (R33) and the words of the read port (R35). -/

namespace Sys2Proof.Machine

/-- No two entries of a charset are equal: "for all i, j in 0..63: i != j -> CS[i] != CS[j]" (R23). -/
def pairwiseDistinct (C : Charset) : Bool := decide C.toList.Nodup

/-- `CS_VALID` (R23): every entry is written and the entries are pairwise distinct. -/
def csValid (s : State) : Bool := s.csw == BitVec.allOnes 64 && pairwiseDistinct s.cs

/-- An error's code, the value of `LAST_ERR` (R105). -/
def ErrorCause.code : ErrorCause → BitVec 3
  | .illegal => 1
  | .invalidCharset => 2
  | .sequence => 3
  | .malformedInput => 4
  | .runOverflow => 5

/-- `ERRBITS` with only bit `c − 1` set, for an error of code `c` (R105, R106). -/
def ErrorCause.sticky (e : ErrorCause) : BitVec 5 := 1#5 <<< (e.code.toNat - 1)

/-- `LAST_ERR` as the three bits STATUS[18:16] (R33). -/
def lastErrField : Option ErrorCause → BitVec 3
  | none => 0
  | some e => e.code

/-- `DEC_RESULT` as the two bits STATUS[21:20] (R33). -/
def DecResult.field : DecResult → BitVec 2
  | .none => 0
  | .ok => 1
  | .malformed => 2
  | .overflow => 3

/-- STATUS (R33), its fields from bit 31 down; the reserved fields read 0. -/
def status (s : State) : Word :=
  0#10 ++ s.decResult.field ++ 0#1 ++ lastErrField s.lastErr ++ 0#3 ++ s.errBits ++ 0#4
    ++ BitVec.ofBool (s.dState == .fail) ++ BitVec.ofBool (s.dState != .idle)
    ++ BitVec.ofBool s.eBusy ++ BitVec.ofBool (csValid s)

/-- CSMASK_LO, `CSW[31:0]` (R35). -/
def csmaskLo (s : State) : Word := s.csw.extractLsb' 0 32

/-- CSMASK_HI, `CSW[63:32]` (R35). -/
def csmaskHi (s : State) : Word := s.csw.extractLsb' 32 32

/-- What a read of an address returns (R35, 20_memory.md R45). -/
def readWord (s : State) (a : ReadAddr) : Word :=
  if a = 0 then status s else if a = 1 then csmaskLo s else if a = 2 then csmaskHi s else 0

end Sys2Proof.Machine
end

