-- ==== Sys2Proof/Machine/Operands.lean ====
section
/-! DEFINITION. What an operand stands for: an index or value names a charset entry (spec 40_charset.md R63), a symbol is
looked up (R62), a value expands to six bits (42_decoder.md R84), and a bit operand is one bit (30_encoding.md R52). -/

namespace Sys2Proof.Machine

/-- The symbol of a 6-bit value, `C[v]` (R63). -/
def symbolOf (C : Charset) (v : Value) : Symbol := C[v.toNat]'v.isLt

/-- The table with entry `i` replaced (R66). -/
def withEntry (C : Charset) (i : Value) (s : Symbol) : Charset := C.set i.toNat s i.isLt

/-- `lookup(C, s)` (R62): the value whose symbol is `s`, if there is one. In a valid charset at most one is. DESIGN CHOICE
(log entry 8): in a charset with duplicate symbols, for which the spec gives no rule (91_not_in_source.md N10), it is the
least such value; no run looks up in one. -/
def lookup (C : Charset) (s : Symbol) : Option Value :=
  (C.toList.findIdx? (· == s)).map (BitVec.ofNat 6)

/-- A 1 for `true` (00_scope.md R11), as a 6-bit word. -/
def bitOperand (b : Bool) : BitVec 6 := (BitVec.ofBool b).setWidth 6

/-- `expand(v) = [v[5], v[4], v[3], v[2], v[1], v[0]]` (42_decoder.md R84). -/
def expand (v : Value) : List Bool :=
  [v.getLsbD 5, v.getLsbD 4, v.getLsbD 3, v.getLsbD 2, v.getLsbD 1, v.getLsbD 0]

end Sys2Proof.Machine
end

