-- ==== Sys2Proof/Machine/Ops.lean ====
section
/-! DEFINITION. The shared operations: the error action (spec 60_exceptions.md R106) and its acknowledgement
(43_control.md R101), writing the charset table (40_charset.md), the output streams (10_state.md R34), the encoder's bit push
(41_encoder.md R76), the decoder's bit feed (42_decoder.md R91), and the block's inputs (10_state.md R35). -/

namespace Sys2Proof.Machine

/-! ### Errors -/

/-- The two writes of the error action: `ERRBITS[c − 1] <- 1; LAST_ERR <- c` (R106). -/
def recordError (e : ErrorCause) (s : State) : State :=
  { s with errBits := s.errBits ||| e.sticky, lastErr := some e }

/-- `raise e` (R106): the error is recorded and the command ends. The block then takes the next command normally, so
this is a next state. -/
def raise (e : ErrorCause) (s : State) : Host.Outcome State Fault Refusal := .next (recordError e s)

/-- The acknowledgement, the block's only return from an error (R101, R110): `ERRBITS <- 0; LAST_ERR <- 0`. -/
def acknowledge (s : State) : State := { s with errBits := 0, lastErr := none }

/-! ### The charset table -/

/-- A message is open: `E_BUSY == 1 or D_STATE != IDLE` (40_charset.md R65). -/
def messageOpen (s : State) : Bool := s.eBusy || s.dState != .idle

/-- `CSW <- 0` (R65): the entries keep their codes. -/
def clearMask (s : State) : State := { s with csw := 0 }

/-- `CS[IDX] <- SYM; CSW[IDX] <- 1` (R66). -/
def writeEntry (i : Value) (sym : Symbol) (s : State) : State :=
  { s with cs := withEntry s.cs i sym, csw := s.csw ||| (1#64 <<< i.toNat) }

/-! ### Output streams -/

/-- `emitE(v, s)` (10_state.md R34). -/
def emitE (v : Value) (sym : Symbol) (s : State) : State := { s with eo := s.eo ++ [⟨v, sym⟩] }

/-- "For each bit x of out, in order: emitD(x)" (R34, 42_decoder.md R92). -/
def emitD (out : List Bool) (s : State) : State := { s with dout := s.dout ++ out }

/-! ### The encoder's bit push -/

/-- `push(b)` (41_encoder.md R76): the bit joins the pending group, and a sixth bit emits the group. -/
def push (b : Bool) (s : State) : State :=
  let acc := (s.eAcc <<< 1) ||| bitOperand b
  if h : s.eCnt.val + 1 < 6 then { s with eAcc := acc, eCnt := ⟨s.eCnt.val + 1, h⟩ }
  else { emitE acc (symbolOf s.cs acc) s with eAcc := 0, eCnt := 0 }

/-- The padding of ENC_END (41_encoder.md R79): a group still pending is filled with 0 bits and emitted. -/
def padGroup (s : State) : State :=
  if s.eCnt = 0 then s
  else
    let v := s.eAcc <<< (6 - s.eCnt.val)
    emitE v (symbolOf s.cs v) s

/-! ### The decoder's bit feed -/

/-- The local copies `(lead, has1, z)` and the local output list `out` of 42_decoder.md R91. -/
structure Feed where
  lead : Bool
  has1 : Bool
  z : Nat
  out : List Bool
  deriving DecidableEq, Repr

/-- The held bits, released by a later 1: the held 1 if there is one, then the held zeros (R91). -/
def Feed.held (f : Feed) : List Bool := (if f.has1 then [true] else []) ++ List.replicate f.z false

/-- `feed(x)` (R91); `none` is the overflow of R93. -/
def feed (zmax : Nat) (f : Feed) (x : Bool) : Option Feed :=
  if f.lead = false then some { f with lead := true }
  else if x then some { f with has1 := true, z := 0, out := f.out ++ f.held }
  else if f.z = zmax then none
  else some { f with z := f.z + 1 }

/-- The bits of a symbol fed in order, up to an overflow (R92). -/
def feedAll (zmax : Nat) : Feed → List Bool → Option Feed
  | f, [] => some f
  | f, x :: xs =>
    match feed zmax f x with
    | some f' => feedAll zmax f' xs
    | none => none

/-- The local copies a DEC_SYM starts from (R92). -/
def startFeed (s : State) : Feed := { lead := s.dLead, has1 := s.dHas1, z := s.dZ, out := [] }

/-- `D_LEAD <- lead; D_HAS1 <- has1; D_Z <- z`, then the bits of `out` are emitted (R92). -/
def finishFeed (f : Feed) (s : State) : State :=
  emitD f.out { s with dLead := f.lead, dHas1 := f.has1, dZ := f.z }

/-- The decoder closed with a result: `D_STATE <- IDLE; D_LEAD <- 0; D_HAS1 <- 0; D_Z <- 0; DEC_RESULT <- res` (R94). -/
def closeDecoder (res : DecResult) (s : State) : State :=
  { s with dState := .idle, dLead := false, dHas1 := false, dZ := 0, decResult := res }

/-! ### The block's inputs -/

/-- What the host does next, and the state with it taken from the queue (10_state.md R35, 20_memory.md R42). -/
def nextInput (s : State) : Option (HostInput × State) :=
  match s.hostIn with
  | [] => none
  | x :: rest => some (x, { s with hostIn := rest })

/-- A step in which the host presents nothing: nothing changes. DESIGN CHOICE (log entry 1). -/
def idle (s : State) : State := s

/-- A word that decodes to Illegal raises ILLEGAL "and has no other effect" (30_encoding.md R55). -/
def raiseIllegal (s : State) : Host.Outcome State Fault Refusal := raise .illegal s

/-- A read of the read port: the word is delivered to the host, with no side effect on the block (10_state.md R35). -/
def serveRead (a : ReadAddr) (s : State) : State :=
  { s with readOut := s.readOut ++ [⟨a, readWord s a⟩] }

/-- The reset input asserted (70_reset_and_hazards.md R115, R116): every state element takes its reset value, an open
message is abandoned, nothing is emitted and nothing already emitted is retracted. The entries of `CS` are drawn
anew. -/
def assertReset (s : State) : State :=
  { s with
    cs := freeCharset s.draws
    csw := 0
    eBusy := false
    eAcc := 0
    eCnt := 0
    dState := .idle
    dLead := false
    dHas1 := false
    dZ := 0
    errBits := 0
    lastErr := none
    decResult := .none
    draws := s.draws + 64 }

end Sys2Proof.Machine
end

