-- ==== Sys2Proof/Machine/CharsetCommands.lean ====
section
/-! DEFINITION. The charset commands CS_CLEAR and CS_WRITE (spec 40_charset.md R65, R66). -/

namespace Sys2Proof.Machine

/-- CS_CLEAR (R65). -/
def execCsClear (s : State) : Host.Outcome State Fault Refusal :=
  if messageOpen s then raise .sequence s else .next (clearMask s)

/-- CS_WRITE IDX, SYM (R66). -/
def execCsWrite (idx : Value) (sym : Symbol) (s : State) : Host.Outcome State Fault Refusal :=
  if messageOpen s then raise .sequence s else .next (writeEntry idx sym s)

end Sys2Proof.Machine
end

