-- ==== Sys2Proof/Machine/ControlCommands.lean ====
section
/-! DEFINITION. The control commands NOP and ERR_CLEAR (spec 43_control.md R100, R101). -/

namespace Sys2Proof.Machine

/-- NOP (R100): no state changes. -/
def execNop (s : State) : Host.Outcome State Fault Refusal := .next s

/-- ERR_CLEAR (R101): the sticky error bits and `LAST_ERR` are cleared, nothing else. -/
def execErrClear (s : State) : Host.Outcome State Fault Refusal := .next (acknowledge s)

end Sys2Proof.Machine
end

