-- ==== Sys2Proof/Machine/DecoderCommands.lean ====
section
/-! DEFINITION. The decoder commands DEC_START, DEC_SYM and DEC_END (spec 42_decoder.md R90 to R94). -/

namespace Sys2Proof.Machine

/-- DEC_START (R90): open a decode message. -/
def execDecStart (s : State) : Host.Outcome State Fault Refusal :=
  if s.dState ≠ .idle then raise .sequence s
  else if csValid s = false then raise .invalidCharset s
  else .next { s with dState := .run, dLead := false, dHas1 := false, dZ := 0, decResult := .none }

/-- DEC_SYM SYM in the state RUN (R92, R93): an unknown symbol is skipped; a known one is fed most significant bit first;
an overflow only moves the decoder to FAIL and raises RUN_OVERFLOW. -/
def feedSymbol (sym : Symbol) (s : State) : Host.Outcome State Fault Refusal :=
  match lookup s.cs sym with
  | none => .next s
  | some v =>
    match feedAll s.config.zmax (startFeed s) (expand v) with
    | some f => .next (finishFeed f s)
    | none => raise .runOverflow { s with dState := .fail }

/-- DEC_SYM SYM (R92): feed one symbol; in FAIL it is ignored without error (R93). -/
def execDecSym (sym : Symbol) (s : State) : Host.Outcome State Fault Refusal :=
  match s.dState with
  | .idle => raise .sequence s
  | .fail => .next s
  | .run => feedSymbol sym s

/-- DEC_END (R94): end of input. -/
def execDecEnd (s : State) : Host.Outcome State Fault Refusal :=
  match s.dState with
  | .idle => raise .sequence s
  | .fail => .next (closeDecoder .overflow s)
  | .run =>
    if s.dHas1 then .next (closeDecoder .ok s)
    else raise .malformedInput (closeDecoder .malformed s)

end Sys2Proof.Machine
end

