-- ==== Sys2Proof/Machine/EncoderCommands.lean ====
section
/-! DEFINITION. The encoder commands ENC_START, ENC_BIT and ENC_END (spec 41_encoder.md R77 to R79). -/

namespace Sys2Proof.Machine

/-- ENC_START (R77): open an encode message and push the leading sentinel. -/
def execEncStart (s : State) : Host.Outcome State Fault Refusal :=
  if s.eBusy then raise .sequence s
  else if csValid s = false then raise .invalidCharset s
  else .next (push true { s with eBusy := true, eAcc := 0, eCnt := 0 })

/-- ENC_BIT B (R78): feed one input bit. -/
def execEncBit (b : Bool) (s : State) : Host.Outcome State Fault Refusal :=
  if s.eBusy = false then raise .sequence s else .next (push b s)

/-- ENC_END (R79): push the trailing sentinel, pad, emit the last group and close the message. -/
def execEncEnd (s : State) : Host.Outcome State Fault Refusal :=
  if s.eBusy = false then raise .sequence s
  else .next { padGroup (push true s) with eAcc := 0, eCnt := 0, eBusy := false }

end Sys2Proof.Machine
end

