-- ==== Sys2Proof/Machine/Dispatch.lean ====
section
/-! DEFINITION. One arm per command (spec 30_encoding.md R53). -/

namespace Sys2Proof.Machine

/-- The effect of a command on the block. -/
def exec (i : Instr) (s : State) : Host.Outcome State Fault Refusal :=
  match i with
  | .nop => Sys2Proof.Machine.execNop s
  | .csClear => Sys2Proof.Machine.execCsClear s
  | .csWrite idx sym => Sys2Proof.Machine.execCsWrite idx sym s
  | .encStart => Sys2Proof.Machine.execEncStart s
  | .encBit b => Sys2Proof.Machine.execEncBit b s
  | .encEnd => Sys2Proof.Machine.execEncEnd s
  | .decStart => Sys2Proof.Machine.execDecStart s
  | .decSym sym => Sys2Proof.Machine.execDecSym sym s
  | .decEnd => Sys2Proof.Machine.execDecEnd s
  | .errClear => Sys2Proof.Machine.execErrClear s

end Sys2Proof.Machine
end

