-- ==== Sys2Proof/Machine/Step.lean ====
section
/-! DEFINITION. One step: the block takes what the host does next (spec 10_state.md R35, 20_memory.md R42). -/

namespace Sys2Proof.Machine

/-- One step. A command word is decoded and its command runs, or ILLEGAL is raised (30_encoding.md R54, R55); a read is
answered; reset is applied; with nothing presented nothing changes. -/
def step (s : State) : Host.Outcome State Fault Refusal :=
  match nextInput s with
  | none => .next (idle s)
  | some (.command w, s') =>
    match decode w with
    | .cmd i => exec i s'
    | .illegal _ => raiseIllegal s'
  | some (.read a, s') => .next (serveRead a s')
  | some (.reset, s') => .next (assertReset s')

/-- The state in which the host presents the table row's word next (log entry 1). -/
def State.withFetchWord (s : State) (nbits w : Nat) : State :=
  { s with hostIn := .command (tableWord nbits w) :: s.hostIn }

end Sys2Proof.Machine
end

