-- ==== Sys2Proof/WellFormed.lean ====
section
/-! DEFINITION. Source lines of the spec's assembler with their operands as plain numbers (30_encoding.md R58, R59),
and the check that refuses an operand out of range. A term of `Instr` needs no check: its operands have their
fields' widths. The check stands where an operand is a number a person wrote. -/

namespace Sys2Proof

/-- One source line: a command (R58) or a pseudo-instruction (R59). -/
inductive AsmLine where
  | nop
  | csClear
  | csWrite (idx sym : Nat)
  | encStart
  | encBit (b : Nat)
  | encEnd
  | decStart
  | decSym (sym : Nat)
  | decEnd
  | errClear
  /-- `enc.bits b0 … b(n-1)` (R59). -/
  | encBits (bs : List Nat)
  /-- `encode b0 … b(n-1)` (R59). -/
  | encode (bs : List Nat)
  /-- `dec.syms s0 … s(m-1)` (R59). -/
  | decSyms (ss : List Nat)
  /-- `decode s0 … s(m-1)` (R59). -/
  | decode (ss : List Nat)
  /-- `cs.load s0, …, s63` (R59). -/
  | csLoad (ss : List Nat)
  deriving DecidableEq, Repr

/-- `IDX` is 0 to 63 (R58). -/
def indexInRange (i : Nat) : Bool := decide (i < 64)

/-- `SYM` is 0 to 2^21 − 1 (R58). -/
def symbolInRange (s : Nat) : Bool := decide (s < 2 ^ 21)

/-- `B` is 0 or 1 (R58). -/
def bitInRange (b : Nat) : Bool := decide (b < 2)

/-- "An assembler refuses an `IDX` outside 0 to 63, a `SYM` outside 0 to 2^21 − 1 and a `B` other than 0 or 1" (R58);
`cs.load` takes "exactly 64 operands" (R59). -/
def AsmLine.wellFormed : AsmLine → Bool
  | .nop => true
  | .csClear => true
  | .csWrite idx sym => indexInRange idx && symbolInRange sym
  | .encStart => true
  | .encBit b => bitInRange b
  | .encEnd => true
  | .decStart => true
  | .decSym sym => symbolInRange sym
  | .decEnd => true
  | .errClear => true
  | .encBits bs => bs.all bitInRange
  | .encode bs => bs.all bitInRange
  | .decSyms ss => ss.all symbolInRange
  | .decode ss => ss.all symbolInRange
  | .csLoad ss => ss.length == 64 && ss.all symbolInRange

end Sys2Proof
end

