-- ==== Sys2Proof/Machine/Assembler.lean ====
section
/-! DEFINITION. The spec's assembler (30_encoding.md R58, R59): the commands a source line stands for, their words, and the
text of a line. -/

namespace Sys2Proof.Machine.Assembler

/-- A bit operand (R58). -/
def bitOf (b : Nat) : Bool := b == 1

/-- The words `cs.write i, si` of `cs.load`, from index `i` on (R59). -/
def loadFrom : Nat → List Nat → List Instr
  | _, [] => []
  | i, s :: ss => .csWrite (BitVec.ofNat 6 i) (BitVec.ofNat 21 s) :: loadFrom (i + 1) ss

/-- The commands a source line expands to (R58, R59). -/
def expansion : AsmLine → List Instr
  | .nop => [.nop]
  | .csClear => [.csClear]
  | .csWrite idx sym => [.csWrite (BitVec.ofNat 6 idx) (BitVec.ofNat 21 sym)]
  | .encStart => [.encStart]
  | .encBit b => [.encBit (bitOf b)]
  | .encEnd => [.encEnd]
  | .decStart => [.decStart]
  | .decSym sym => [.decSym (BitVec.ofNat 21 sym)]
  | .decEnd => [.decEnd]
  | .errClear => [.errClear]
  | .encBits bs => bs.map fun b => .encBit (bitOf b)
  | .encode bs => .encStart :: bs.map (fun b => .encBit (bitOf b)) ++ [.encEnd]
  | .decSyms ss => ss.map fun s => .decSym (BitVec.ofNat 21 s)
  | .decode ss => .decStart :: ss.map (fun s => .decSym (BitVec.ofNat 21 s)) ++ [.decEnd]
  | .csLoad ss => .csClear :: loadFrom 0 ss

/-- The words of a source line; a line with an operand out of range is refused (R58). -/
def assemble (l : AsmLine) : Option (List Word) :=
  if l.wellFormed then some ((expansion l).map encode) else none

/-! ### The text of a line (R58)

A line is cut into tokens: a run of characters, a comma, or a quoted character; `;` starts a comment. Which separators
stand between operands is read from R58 and R59 as they print them: commas in `cs.write` and `cs.load`, blanks
elsewhere; a quoted character needs no separator beside it. DESIGN CHOICE (log entry 5). -/

/-- A token of a source line. -/
inductive Token where
  | word (cs : List Char)
  | comma
  | quoted (c : Char)
  deriving DecidableEq, Repr

/-- A collected run of characters as a token, if there is one. -/
def flush (run : List Char) : List Token := if run.isEmpty then [] else [.word run]

/-- The tokens of a line, with the run of characters collected so far. DESIGN CHOICE (log entry 5): a quoted character is a
token of its own that ends the run before it, so no separator need stand beside it; what is quoted may be any character, a
`;`, a comma or a blank among them. -/
def tokensFrom (run : List Char) : List Char → List Token
  | [] => flush run
  | '\'' :: c :: '\'' :: rest => flush run ++ .quoted c :: tokensFrom [] rest
  | c :: rest =>
    if c = ';' then flush run
    else if c = ',' then flush run ++ .comma :: tokensFrom [] rest
    else if c = ' ' || c = '\t' then flush run ++ tokensFrom [] rest
    else tokensFrom (run ++ [c]) rest

/-- A digit of a base of at most 16. -/
def digit (base : Nat) (c : Char) : Option Nat :=
  let n := c.toNat
  let d :=
    if 0x30 ≤ n ∧ n ≤ 0x39 then n - 0x30
    else if 0x41 ≤ n ∧ n ≤ 0x46 then n - 0x37
    else if 0x61 ≤ n ∧ n ≤ 0x66 then n - 0x57
    else 16
  if d < base then some d else none

/-- The number the digits stand for, most significant first, after a value read so far. -/
def digitsFrom (base : Nat) (n : Nat) : List Char → Option Nat
  | [] => some n
  | c :: cs =>
    match digit base c with
    | some d => digitsFrom base (n * base + d) cs
    | none => none

/-- "Numbers are decimal or `0x` hexadecimal" (R58). -/
def number : List Char → Option Nat
  | [] => none
  | '0' :: 'x' :: c :: cs => digitsFrom 16 0 (c :: cs)
  | c :: cs => digitsFrom 10 0 (c :: cs)

/-- A numeric operand. -/
def numberToken : Token → Option Nat
  | .word cs => number cs
  | .comma => none
  | .quoted _ => none

/-- A symbol operand: a number, or `'c'`, "meaning the 21-bit code the host assigns to character c" (R58); `code` is the
host's assignment. -/
def symbolToken (code : Char → Nat) : Token → Option Nat
  | .word cs => number cs
  | .comma => none
  | .quoted c => some (code c)

/-- Operands separated by blanks. -/
def operands (f : Token → Option Nat) : List Token → Option (List Nat)
  | [] => some []
  | t :: ts =>
    match f t, operands f ts with
    | some n, some ns => some (n :: ns)
    | _, _ => none

/-- At least one operand, separated by commas. -/
def commaOperands (f : Token → Option Nat) : List Token → Option (List Nat)
  | [t] => (f t).map fun n => [n]
  | t :: .comma :: ts =>
    match f t, commaOperands f ts with
    | some n, some ns => some (n :: ns)
    | _, _ => none
  | _ => none

/-- A command without operands takes no further token. -/
def bare (l : AsmLine) : List Token → Option AsmLine
  | [] => some l
  | _ :: _ => none

/-- A command with one operand. -/
def unary (mk : Nat → AsmLine) (f : Token → Option Nat) : List Token → Option AsmLine
  | [t] => (f t).map mk
  | _ => none

/-- The command a mnemonic and its operand tokens stand for (R58, R59). -/
def parseCommand (code : Char → Nat) (mnemonic : List Char) (ts : List Token) : Option AsmLine :=
  if mnemonic = "nop".toList then bare .nop ts
  else if mnemonic = "cs.clear".toList then bare .csClear ts
  else if mnemonic = "cs.write".toList then
    match ts with
    | [i, .comma, s] =>
      match numberToken i, symbolToken code s with
      | some idx, some sym => some (.csWrite idx sym)
      | _, _ => none
    | _ => none
  else if mnemonic = "enc.start".toList then bare .encStart ts
  else if mnemonic = "enc.bit".toList then unary .encBit numberToken ts
  else if mnemonic = "enc.end".toList then bare .encEnd ts
  else if mnemonic = "dec.start".toList then bare .decStart ts
  else if mnemonic = "dec.sym".toList then unary .decSym (symbolToken code) ts
  else if mnemonic = "dec.end".toList then bare .decEnd ts
  else if mnemonic = "err.clear".toList then bare .errClear ts
  else if mnemonic = "enc.bits".toList then (operands numberToken ts).map .encBits
  else if mnemonic = "encode".toList then (operands numberToken ts).map .encode
  else if mnemonic = "dec.syms".toList then (operands (symbolToken code) ts).map .decSyms
  else if mnemonic = "decode".toList then (operands (symbolToken code) ts).map .decode
  else if mnemonic = "cs.load".toList then (commaOperands (symbolToken code) ts).map .csLoad
  else none

/-- The words of one line of text: none for a blank or comment line; the line is refused if it is not a command or an
operand is out of range (R58). -/
def assembleLine (code : Char → Nat) (line : List Char) : Option (List Word) :=
  match tokensFrom [] line with
  | [] => some []
  | .word mnemonic :: ts =>
    match parseCommand code mnemonic ts with
    | some l => assemble l
    | none => none
  | .comma :: _ => none
  | .quoted _ :: _ => none

/-- The words of a source text, line after line (R58). -/
def assembleText (code : Char → Nat) : List (List Char) → Option (List Word)
  | [] => some []
  | l :: ls =>
    match assembleLine code l, assembleText code ls with
    | some ws, some rest => some (ws ++ rest)
    | _, _ => none

end Sys2Proof.Machine.Assembler
end

