-- ==== Sys2Proof/Machine/Codec.lean ====
section
/-! DEFINITION. The codec's two functions as the spec defines them on whole sequences: `Enc` (spec 41_encoder.md R68 to R72)
and `Dec` (42_decoder.md R82 to R88). The engines realise them command by command; the message rules (R80, R95) say so.
A charset argument is the table of 64 symbols; the functions are meant for valid ones (40_charset.md R60). -/

namespace Sys2Proof.Machine.Codec

/-- `validCharset(C)` for any list of symbols (40_charset.md R60). -/
def validCharset (C : List Symbol) : Bool := C.length == 64 && decide C.Nodup

/-! ### The encode function -/

/-- `pad(n) = (6 - ((n + 2) mod 6)) mod 6` (R69). -/
def pad (n : Nat) : Nat := (6 - (n + 2) % 6) % 6

/-- `Wrap(b) = [1] ++ b ++ [1] ++ replicate(pad(len(b)), 0)` (R70). -/
def wrap (b : List Bool) : List Bool := [true] ++ b ++ [true] ++ List.replicate (pad b.length) false

/-- `group(k)`, the bits `6k` to `6k + 5` (R71). -/
def group (w : List Bool) (k : Nat) : List Bool := (w.drop (6 * k)).take 6

/-- `val(g)`, the sum over `j` in 0..5 of `g[j] * 2^(5-j)` (R71, 20_memory.md R39). -/
def val (g : List Bool) : Nat :=
  ((List.range 6).map fun j => (g.getD j false).toNat * 2 ^ (5 - j)).sum

/-- The group values of a bit sequence cut into groups of six (R71). -/
def groupValues (w : List Bool) : List Value :=
  (List.range (w.length / 6)).map fun k => BitVec.ofNat 6 (val (group w k))

/-- `V(b)` (R71). -/
def values (b : List Bool) : List Value := groupValues (wrap b)

/-- `Enc(b, C) = map (fun v => C[v]) V(b)` (R72). -/
def enc (b : List Bool) (C : Charset) : List Symbol := (values b).map (symbolOf C)

/-! ### The decode function -/

/-- `Buf(s, C) = concat (map expand (filterMap (fun x => lookup(C, x)) s))` (R85). -/
def buf (s : List Symbol) (C : Charset) : List Bool := ((s.filterMap (lookup C)).map expand).flatten

/-- `strip(B)`: trailing 0 bits are removed "until the last bit is `true` or the buffer is empty" (R86). -/
def strip (B : List Bool) : List Bool := (B.reverse.dropWhile (· == false)).reverse

/-- `Dec(s, C) : Bits | MalformedInput` (R88); `none` is MalformedInput (R87). -/
def dec (s : List Symbol) (C : Charset) : Option (List Bool) :=
  let B := strip (buf s C)
  if B.length < 2 then none else some ((B.drop 1).take (B.length - 2))

end Sys2Proof.Machine.Codec
end

