-- ==== Sys2Proof/Safety.lean ====
section
/-! DEFINITION. The terms claims use: the invariant of the block (spec 10_state.md R26 to R32, 20_memory.md R49), runs
without a recorded error (93_implementation_defined.md), the inputs of one message (70_reset_and_hazards.md R121), and runs of
zeros longer than `ZMAX` (42_decoder.md R93). -/

namespace Sys2Proof.Machine

/-- "A claim about a run takes no error recorded, ERRBITS = 0, as a premise" (93_implementation_defined.md). -/
abbrev NoErrorRecorded (s : State) : Prop := s.errBits = 0

/-- The encoder's invariant (R26, R27). `E_CNT ≤ 5` is in the type. -/
abbrev EncoderInv (s : State) : Prop :=
  s.eAcc.toNat < 2 ^ s.eCnt.val ∧ (s.eBusy = false → s.eAcc = 0 ∧ s.eCnt = 0)

/-- The decoder's invariant (R28 to R32): idle registers are 0, nothing is held before the leading bit, and the count of
held zeros is at most `ZMAX`. -/
abbrev DecoderInv (s : State) : Prop :=
  (s.dState = .idle → s.dLead = false ∧ s.dHas1 = false ∧ s.dZ = 0) ∧
  (s.dLead = false → s.dHas1 = false ∧ s.dZ = 0) ∧
  s.dZ ≤ s.config.zmax ∧
  (s.dState ≠ .idle → s.decResult = .none)

/-- The charset is valid while a message is open (R67, 20_memory.md R49). -/
abbrev CharsetInv (s : State) : Prop := messageOpen s = true → csValid s = true

/-- The error record is consistent (10_state.md R33, 60_exceptions.md R106, R110): no last error exactly when no sticky
bit is set, and the last error's sticky bit is set. -/
abbrev ErrorInv (s : State) : Prop :=
  (s.lastErr = none ↔ s.errBits = 0) ∧
  (∀ e ∈ s.lastErr, s.errBits &&& e.sticky = e.sticky)

/-- The invariant that every step keeps, with the parameter's bound `ZMAX ≥ 6` (00_scope.md R9). -/
abbrev Inv (s : State) : Prop :=
  s.config.Legal ∧ EncoderInv s ∧ DecoderInv s ∧ CharsetInv s ∧ ErrorInv s

/-- A sequence holds a run of more than `zmax` consecutive 0 bits (42_decoder.md R93). -/
abbrev LongRun (zmax : Nat) (B : List Bool) : Prop := List.replicate (zmax + 1) false <:+: B

/-- The command an input presents, if it is one. -/
def HostInput.instr : HostInput → Option Instr
  | .command w =>
    match decode w with
    | .cmd i => some i
    | .illegal _ => none
  | .read _ => none
  | .reset => none

/-- The input leaves an open encode message open: it is neither reset nor ENC_END. -/
abbrev HostInput.StaysInEncode (x : HostInput) : Prop := x ≠ .reset ∧ x.instr ≠ some .encEnd

/-- The input leaves an open decode message open: it is neither reset nor DEC_END. -/
abbrev HostInput.StaysInDecode (x : HostInput) : Prop := x ≠ .reset ∧ x.instr ≠ some .decEnd

/-- The input bit an input feeds, if it is an ENC_BIT. -/
def HostInput.fedBit (x : HostInput) : Option Bool :=
  match x.instr with
  | some (.encBit b) => some b
  | _ => none

/-- The symbol an input feeds, if it is a DEC_SYM. -/
def HostInput.fedSymbol (x : HostInput) : Option Symbol :=
  match x.instr with
  | some (.decSym s) => some s
  | _ => none

/-- The bits the ENC_BIT commands of a message carry, in order (41_encoder.md R80). -/
def fedBits (xs : List HostInput) : List Bool := xs.filterMap HostInput.fedBit

/-- The symbols the DEC_SYM commands of a message carry, in order (42_decoder.md R95). -/
def fedSymbols (xs : List HostInput) : List Symbol := xs.filterMap HostInput.fedSymbol

/-- `n` steps of the machine. -/
def run (n : Nat) (s : State) : Host.Outcome State Fault Refusal := Host.Core.run Sys2Proof.core n s

/-- The host presents a command. -/
def present (i : Instr) : HostInput := .command (encode i)

end Sys2Proof.Machine
end

