-- ==== Sys2Proof/Certificates/Slice0/Obligations.lean ====
section
/-! DEFINITION. The statements about the model, from the numbered rules of spec/. Every command's result statement has
as its conclusion the next state that `exec` answers. -/

open Sys2Proof Sys2Proof.Machine Sys2Proof.Machine.Codec Sys2Proof.Machine.Assembler

/-! ### Encoding (30_encoding.md) -/

/-- Decoding the word of a command gives the command back, whatever its operands (R52, R54, R58). -/
def Obligations.DecodeOfEncode : Prop := ∀ i : Instr, decode (encode i) = .cmd i

/-- A legal word is the word of the command it decodes to, so a command has one word (R54, R55, R58). -/
def Obligations.EncodeOfDecode : Prop := ∀ (w : Word) (i : Instr), decode w = .cmd i → encode i = w

/-- R53, R54: the rows of the opcode map; a word is a command exactly when a row's match and mask select it, and then has
the row's name and the word's fields; the masks cover every reserved field, and at most one row matches any word. -/
def Obligations.DecodeFollowsOpcodeMap : Prop :=
  opcodeMap.map (fun r => (r.op.toNat, r.mnemonic, r.format, r.pattern.toNat, r.mask.toNat)) =
    [ (0x0, .NOP, .N, 0x00000000, 0xFFFFFFFF), (0x1, .CS_CLEAR, .N, 0x10000000, 0xFFFFFFFF),
      (0x2, .CS_WRITE, .IS, 0x20000000, 0xF8000000), (0x3, .ENC_START, .N, 0x30000000, 0xFFFFFFFF),
      (0x4, .ENC_BIT, .B, 0x40000000, 0xFFFFFFFE), (0x5, .ENC_END, .N, 0x50000000, 0xFFFFFFFF),
      (0x6, .DEC_START, .N, 0x60000000, 0xFFFFFFFF), (0x7, .DEC_SYM, .S, 0x70000000, 0xFFE00000),
      (0x8, .DEC_END, .N, 0x80000000, 0xFFFFFFFF), (0x9, .ERR_CLEAR, .N, 0x90000000, 0xFFFFFFFF) ] ∧
  (∀ (w : Word) (i : Instr), decode w = .cmd i ↔
    ∃ r ∈ opcodeMap, w &&& r.mask = r.pattern ∧ i = withFields r.mnemonic w) ∧
  (∀ r ∈ opcodeMap, r.mask = 0xF0000000 ||| r.format.reserved) ∧
  (∀ (w : Word), ∀ r ∈ opcodeMap, ∀ r' ∈ opcodeMap,
    w &&& r.mask = r.pattern → w &&& r'.mask = r'.pattern → r = r')

/-- R55: the illegal words are those of OP 0xA to 0xF and those with a 1 in a reserved field of their format; presenting
one raises ILLEGAL and has no other effect. -/
def Obligations.IllegalWordRaisesOnly : Prop :=
  (∀ w : Word, (∃ why, decode w = .illegal why) ↔
    (0xA ≤ (opField w).toNat ∨ ∃ r ∈ opcodeMap, r.op = opField w ∧ w &&& r.format.reserved ≠ 0)) ∧
  (∀ (s : State) (w : Word) (rest : List HostInput) (why : IllegalWord),
    s.hostIn = .command w :: rest → decode w = .illegal why →
    step s = .next { s with hostIn := rest, errBits := s.errBits ||| 0b00001, lastErr := some .illegal })

/-- Words written out from the spec's encodings decode to the commands they stand for (R51 to R53; one word of each
family). -/
def Obligations.SpelledWordsDecode : Prop :=
  decode 0x00000000 = .cmd .nop ∧ decode 0x27E0006F = .cmd (.csWrite 63 0x6F) ∧
  decode 0x40000001 = .cmd (.encBit true) ∧ decode 0x70000065 = .cmd (.decSym 0x65) ∧
  decode 0x90000000 = .cmd .errClear ∧ decode 0x2C000000 = .illegal .reservedField

/-- The assembler's lines (R58; the lists of R59): the word of each command without operands; an `IDX` of 64 or more, a
`SYM` of 2^21 or more or a `B` of 2 or more is refused, in the list forms too, and so is a `cs.load` of other than 64
operands, and no other line is; the words of an accepted line decode to the commands it stands for; an operand in range
reaches the word unchanged. -/
def Obligations.AssemblerWordsDecode : Prop :=
  (assemble .nop = some [0x00000000] ∧ assemble .csClear = some [0x10000000] ∧
    assemble .encStart = some [0x30000000] ∧ assemble .encEnd = some [0x50000000] ∧
    assemble .decStart = some [0x60000000] ∧ assemble .decEnd = some [0x80000000] ∧
    assemble .errClear = some [0x90000000]) ∧
  (∀ idx sym : Nat, assemble (.csWrite idx sym) = none ↔ 64 ≤ idx ∨ 2 ^ 21 ≤ sym) ∧
  (∀ sym : Nat, assemble (.decSym sym) = none ↔ 2 ^ 21 ≤ sym) ∧
  (∀ b : Nat, assemble (.encBit b) = none ↔ 2 ≤ b) ∧
  (∀ bs : List Nat, (assemble (.encBits bs) = none ↔ ∃ b ∈ bs, 2 ≤ b) ∧
    (assemble (.encode bs) = none ↔ ∃ b ∈ bs, 2 ≤ b)) ∧
  (∀ ss : List Nat, (assemble (.decSyms ss) = none ↔ ∃ x ∈ ss, 2 ^ 21 ≤ x) ∧
    (assemble (.decode ss) = none ↔ ∃ x ∈ ss, 2 ^ 21 ≤ x) ∧
    (assemble (.csLoad ss) = none ↔ ss.length ≠ 64 ∨ ∃ x ∈ ss, 2 ^ 21 ≤ x)) ∧
  (∀ (l : AsmLine) (ws : List Word), assemble l = some ws → ws.map decode = (expansion l).map .cmd) ∧
  (∀ idx sym : Nat, idx < 64 → sym < 2 ^ 21 →
    ∃ w : Word, assemble (.csWrite idx sym) = some [w] ∧ w.toNat = 0x20000000 + idx * 2 ^ 21 + sym) ∧
  (∀ sym : Nat, sym < 2 ^ 21 → ∃ w : Word, assemble (.decSym sym) = some [w] ∧ w.toNat = 0x70000000 + sym) ∧
  (∀ b : Nat, b < 2 → ∃ w : Word, assemble (.encBit b) = some [w] ∧ w.toNat = 0x40000000 + b)

/-- The pseudo-instructions' expansions (R59): `enc.bits` and `dec.syms` are the words of `enc.bit` and `dec.sym` of each
operand in order; `encode` and `decode` put a message's START and END around them; `cs.load` is CS_CLEAR and the 64
CS_WRITE words in index order. -/
def Obligations.PseudoInstructionsExpand : Prop :=
  (∀ (bs : List Nat) (ws : List Word), assemble (.encBits bs) = some ws →
    ws.length = bs.length ∧
    (∀ (i b : Nat), bs[i]? = some b → ∃ w : Word, ws[i]? = some w ∧ assemble (.encBit b) = some [w] ∧
      w.toNat = 0x40000000 + b) ∧
    assemble (.encode bs) = some ([0x30000000] ++ ws ++ [0x50000000])) ∧
  (∀ (ss : List Nat) (ws : List Word), assemble (.decSyms ss) = some ws →
    ws.length = ss.length ∧
    (∀ (i x : Nat), ss[i]? = some x → ∃ w : Word, ws[i]? = some w ∧ assemble (.decSym x) = some [w] ∧
      w.toNat = 0x70000000 + x) ∧
    assemble (.decode ss) = some ([0x60000000] ++ ws ++ [0x80000000])) ∧
  (∀ (ss : List Nat) (ws : List Word), assemble (.csLoad ss) = some ws →
    ws.length = 65 ∧ ss.length = 64 ∧ ws[0]? = some 0x10000000 ∧
    ∀ (i x : Nat), ss[i]? = some x → ∃ w : Word, ws[i + 1]? = some w ∧ assemble (.csWrite i x) = some [w] ∧
      w.toNat = 0x20000000 + i * 2 ^ 21 + x)

/-! ### One step, the read port and reset (10_state.md, 20_memory.md, 70_reset_and_hazards.md) -/

/-- A step takes the command word presented next, and its effect is `exec` of the command the word decodes to, in the
state with the word taken from the queue (R35, R42, R54). -/
def Obligations.StepRunsDecodedCommand : Prop :=
  ∀ (s : State) (w : Word) (rest : List HostInput) (i : Instr),
    s.hostIn = .command w :: rest → decode w = .cmd i → step s = exec i { s with hostIn := rest }

/-- A read returns STATUS, CSMASK_LO, CSMASK_HI or 0 and has no side effect on the block (R35, R44, R45). -/
def Obligations.ReadPortReturns : Prop :=
  ∀ (s : State) (a : ReadAddr) (rest : List HostInput), s.hostIn = .read a :: rest →
    ∃ d : Word, step s = .next { s with hostIn := rest, readOut := s.readOut ++ [⟨a, d⟩] } ∧
      (a = 0 → d = status s) ∧ (a = 1 → d = s.csw.extractLsb' 0 32) ∧
      (a = 2 → d = s.csw.extractLsb' 32 32) ∧ (a = 3 → d = 0)

/-- The values of R115 at reset, for the elements the spec gives a value; STATUS reads 0. Nothing is said of `CS`. -/
def Obligations.ResetStateValues : Prop :=
  State.reset.csw = 0 ∧ csValid State.reset = false ∧ State.reset.eBusy = false ∧ State.reset.eAcc = 0 ∧
  State.reset.eCnt = 0 ∧ State.reset.dState = .idle ∧ State.reset.dLead = false ∧ State.reset.dHas1 = false ∧
  State.reset.dZ = 0 ∧ State.reset.errBits = 0 ∧ State.reset.lastErr = none ∧ State.reset.decResult = .none ∧
  status State.reset = 0x00000000

/-- R115, R116: asserting the reset input in any state, an open message included, gives every element with a reset value
that value, emits nothing and retracts nothing. Nothing is said of `CS`. The queue that holds the assertion is the model's
form of the reset input (log entry 1). -/
def Obligations.ResetInputAbandons : Prop :=
  ∀ (s : State) (rest : List HostInput), s.hostIn = .reset :: rest →
    ∃ t, step s = .next t ∧ t.csw = 0 ∧ csValid t = false ∧ t.eBusy = false ∧ t.eAcc = 0 ∧ t.eCnt = 0 ∧
      t.dState = .idle ∧ t.dLead = false ∧ t.dHas1 = false ∧ t.dZ = 0 ∧ t.errBits = 0 ∧ t.lastErr = none ∧
      t.decResult = .none ∧ status t = 0x00000000 ∧ t.eo = s.eo ∧ t.dout = s.dout

/-- Every state has a next state: no command, illegal word, read or reset stops the block (R106), a step takes exactly
the oldest thing the host does (R35, R42), and the parameter `ZMAX` never changes (R9). That a step with nothing presented is
a next state is the model's choice (log entry 1), and so is the parameter's place in the state (log entry 2). -/
def Obligations.BlockNeverStops : Prop :=
  ∀ s : State, ∃ t, step s = .next t ∧ t.hostIn = s.hostIn.tail ∧ t.config = s.config

/-! ### STATUS and the error record (10_state.md R33, 60_exceptions.md) -/

/-- The fields of STATUS (R33): each flag at its bit; `LAST_ERR` the code of the most recent error or 0 (R105);
`DEC_RESULT` 0 NONE, 1 OK, 2 MALFORMED, 3 OVERFLOW; the reserved bits read 0 in every state. -/
def Obligations.StatusLayout : Prop :=
  ∀ s : State,
    (status s).getLsbD 0 = csValid s ∧ (status s).getLsbD 1 = s.eBusy ∧
    (status s).getLsbD 2 = decide (s.dState ≠ .idle) ∧ (status s).getLsbD 3 = decide (s.dState = .fail) ∧
    (status s).extractLsb' 4 4 = 0 ∧ (status s).extractLsb' 8 5 = s.errBits ∧
    (status s).extractLsb' 13 3 = 0 ∧
    (s.lastErr = none → (status s).extractLsb' 16 3 = 0) ∧
    (s.lastErr = some .illegal → (status s).extractLsb' 16 3 = 1) ∧
    (s.lastErr = some .invalidCharset → (status s).extractLsb' 16 3 = 2) ∧
    (s.lastErr = some .sequence → (status s).extractLsb' 16 3 = 3) ∧
    (s.lastErr = some .malformedInput → (status s).extractLsb' 16 3 = 4) ∧
    (s.lastErr = some .runOverflow → (status s).extractLsb' 16 3 = 5) ∧
    (status s).getLsbD 19 = false ∧
    (s.decResult = .none → (status s).extractLsb' 20 2 = 0) ∧
    (s.decResult = .ok → (status s).extractLsb' 20 2 = 1) ∧
    (s.decResult = .malformed → (status s).extractLsb' 20 2 = 2) ∧
    (s.decResult = .overflow → (status s).extractLsb' 20 2 = 3) ∧
    (status s).extractLsb' 22 10 = 0

/-- Over every step, the sticky bits and `LAST_ERR` are left alone, or exactly one error is recorded, or both are
cleared and the step was ERR_CLEAR or reset (R33, R106, R107, R110). -/
def Obligations.ErrorRecordDiscipline : Prop :=
  ∀ s t : State, step s = .next t →
    (t.errBits = s.errBits ∧ t.lastErr = s.lastErr) ∨
    (∃ e : ErrorCause, t.errBits = s.errBits ||| e.sticky ∧ t.lastErr = some e) ∨
    (t.errBits = 0 ∧ t.lastErr = none ∧
      ∃ x rest, s.hostIn = x :: rest ∧ (x = .reset ∨ x.instr = some .errClear))

/-- The table of R105: each error's code, which is what `LAST_ERR` shows of it, 0 for no error; and its sticky bit,
STATUS[8 + code − 1]. -/
def Obligations.ErrorCodeSticky : Prop :=
  (ErrorCause.illegal.code = 1 ∧ ErrorCause.invalidCharset.code = 2 ∧ ErrorCause.sequence.code = 3 ∧
    ErrorCause.malformedInput.code = 4 ∧ ErrorCause.runOverflow.code = 5) ∧
  (lastErrField none = 0 ∧ ∀ e : ErrorCause, lastErrField (some e) = e.code) ∧
  (ErrorCause.illegal.sticky = 0b00001 ∧ ErrorCause.invalidCharset.sticky = 0b00010 ∧
    ErrorCause.sequence.sticky = 0b00100 ∧ ErrorCause.malformedInput.sticky = 0b01000 ∧
    ErrorCause.runOverflow.sticky = 0b10000) ∧
  ∀ (e : ErrorCause) (k : Nat), e.sticky.getLsbD k = decide (k + 1 = e.code.toNat)

/-- An engine register that changes was changed by a command of its engine or by reset (R18, R25 to R31), and
`DEC_RESULT` is written only by DEC_START, DEC_END and reset (R33). -/
def Obligations.EngineRegisterWriters : Prop :=
  ∀ s t : State, step s = .next t →
    ((t.eBusy, t.eAcc, t.eCnt) ≠ (s.eBusy, s.eAcc, s.eCnt) →
      ∃ x rest, s.hostIn = x :: rest ∧ (x = .reset ∨ x.instr = some .encStart ∨
        (∃ b, x.instr = some (.encBit b)) ∨ x.instr = some .encEnd)) ∧
    ((t.dState, t.dLead, t.dHas1, t.dZ) ≠ (s.dState, s.dLead, s.dHas1, s.dZ) →
      ∃ x rest, s.hostIn = x :: rest ∧ (x = .reset ∨ x.instr = some .decStart ∨
        (∃ c, x.instr = some (.decSym c)) ∨ x.instr = some .decEnd)) ∧
    (t.decResult ≠ s.decResult →
      ∃ x rest, s.hostIn = x :: rest ∧ (x = .reset ∨ x.instr = some .decStart ∨ x.instr = some .decEnd))

/-! ### The charset table (10_state.md R21 to R24, 40_charset.md) -/

/-- R23: `CS_VALID` is every `CSW` bit set and the entries pairwise different; then the table is a valid charset (R60,
R61). -/
def Obligations.CsValidMeaning : Prop :=
  ∀ s : State,
    (csValid s = true ↔
      s.csw = 0xFFFFFFFFFFFFFFFF ∧ ∀ i j : Value, i ≠ j → symbolOf s.cs i ≠ symbolOf s.cs j) ∧
    (csValid s = true → validCharset s.cs.toList = true)

/-- R62, R64: in a charset without duplicates, lookup finds a value exactly when its symbol is the one looked up, and
finds none exactly when no entry is. -/
def Obligations.LookupInverse : Prop :=
  ∀ (C : Charset) (x : Symbol), validCharset C.toList = true →
    (∀ v : Value, lookup C x = some v ↔ symbolOf C v = x) ∧
    (lookup C x = none ↔ ∀ v : Value, symbolOf C v ≠ x)

/-- CS_CLEAR with both engines idle: `CSW <- 0` and nothing else, so `CS_VALID` is 0 (R65). -/
def Obligations.CsClearClears : Prop :=
  ∀ s : State, s.eBusy = false → s.dState = .idle →
    exec .csClear s = .next { s with csw := 0 } ∧ csValid { s with csw := 0 } = false

/-- CS_WRITE with both engines idle: `CS[IDX] <- SYM`, `CSW[IDX] <- 1`, every other entry and mask bit and every other
part of the state unchanged (R66, R22). -/
def Obligations.CsWriteWrites : Prop :=
  ∀ (s : State) (idx : Value) (sym : Symbol), s.eBusy = false → s.dState = .idle →
    ∃ (C : Charset) (m : BitVec 64),
      exec (.csWrite idx sym) s = .next { s with cs := C, csw := m } ∧
      symbolOf C idx = sym ∧ (∀ v : Value, v ≠ idx → symbolOf C v = symbolOf s.cs v) ∧
      m.getLsbD idx.toNat = true ∧ ∀ k : Nat, k ≠ idx.toNat → m.getLsbD k = s.csw.getLsbD k

/-- R49: CS_CLEAR and CS_WRITE while either engine has a message open only raise SEQUENCE, and no step but reset changes
the table or its mask then, so every symbol of a message is mapped by one charset. -/
def Obligations.CharsetFixedDuringMessage : Prop :=
  (∀ s : State, s.eBusy = true ∨ s.dState ≠ .idle →
    exec .csClear s = .next { s with errBits := s.errBits ||| 0b00100, lastErr := some .sequence } ∧
    ∀ (idx : Value) (sym : Symbol), exec (.csWrite idx sym) s =
      .next { s with errBits := s.errBits ||| 0b00100, lastErr := some .sequence }) ∧
  (∀ s t : State, s.eBusy = true ∨ s.dState ≠ .idle → s.hostIn.head? ≠ some .reset → step s = .next t →
    t.cs = s.cs ∧ t.csw = s.csw)

/-- `CS` is written only by CS_WRITE, and `CSW` only by CS_WRITE and CS_CLEAR (R21, R22), reset aside. -/
def Obligations.CharsetWriters : Prop :=
  ∀ (s t : State) (x : HostInput) (rest : List HostInput), s.hostIn = x :: rest → x ≠ .reset → step s = .next t →
    (t.cs ≠ s.cs → ∃ idx sym, x.instr = some (.csWrite idx sym)) ∧
    (t.csw ≠ s.csw → x.instr = some .csClear ∨ ∃ idx sym, x.instr = some (.csWrite idx sym))

/-- Boot (R117, R59): with both engines idle, the 65 commands of `cs.load` with 64 pairwise different symbols leave
`CS_VALID = 1` and the table equal to the symbols (R61), with no error recorded. -/
def Obligations.BootLoadsCharset : Prop :=
  ∀ (s : State) (ss : List Nat) (rest : List HostInput),
    AsmLine.wellFormed (.csLoad ss) = true → ss.Nodup → s.eBusy = false → s.dState = .idle →
    s.hostIn = (expansion (.csLoad ss)).map present ++ rest →
    ∃ t, Machine.run 65 s = .next t ∧ csValid t = true ∧ t.cs.toList = ss.map (BitVec.ofNat 21) ∧
      t.errBits = s.errBits ∧ t.lastErr = s.lastErr ∧ t.hostIn = rest

/-! ### The encoder (41_encoder.md) -/

/-- ENC_START with the encoder idle and a valid charset opens a message and pushes the leading sentinel (R77). -/
def Obligations.EncStartOpens : Prop :=
  ∀ s : State, s.eBusy = false → csValid s = true →
    exec .encStart s = .next { s with eBusy := true, eAcc := 1, eCnt := 1 }

/-- ENC_START's errors in their order (R77, R107): SEQUENCE when a message is open, whatever the charset, else
INVALID_CHARSET; each only records the error. -/
def Obligations.EncStartErrors : Prop :=
  ∀ s : State,
    (s.eBusy = true →
      exec .encStart s = .next { s with errBits := s.errBits ||| 0b00100, lastErr := some .sequence }) ∧
    (s.eBusy = false → csValid s = false →
      exec .encStart s = .next { s with errBits := s.errBits ||| 0b00010, lastErr := some .invalidCharset })

/-- ENC_BIT with fewer than five bits pending adds its bit, with five pending it completes the group and emits one item
(R76, R78). -/
def Obligations.EncBitPushes : Prop :=
  ∀ (s : State) (b : Bool), s.eBusy = true →
    (∀ h : s.eCnt.val + 1 < 6, exec (.encBit b) s =
      .next { s with eAcc := (s.eAcc <<< 1) ||| (BitVec.ofBool b).setWidth 6, eCnt := ⟨s.eCnt.val + 1, h⟩ }) ∧
    (s.eCnt.val = 5 → ∃ v : Value, v = (s.eAcc <<< 1) ||| (BitVec.ofBool b).setWidth 6 ∧
      exec (.encBit b) s =
        .next { s with eAcc := 0, eCnt := 0, eo := s.eo ++ [⟨v, symbolOf s.cs v⟩] })

/-- The shift-in is exact (R15, R76, R78, R79): in a state that meets the encoder's invariant with a message open, ENC_BIT
leaves `2 · E_ACC + B` pending as a number, or emits it as the value when five bits were pending, and ENC_END emits
`(2 · E_ACC + 1) · 2^(5 − E_CNT)`. No bit is lost at the top of the accumulator. -/
def Obligations.PushIsExact : Prop :=
  ∀ s : State, EncoderInv s → s.eBusy = true →
    (∀ b : Bool, ∃ t, exec (.encBit b) s = .next t ∧
      (s.eCnt.val < 5 → t.eAcc.toNat = 2 * s.eAcc.toNat + b.toNat ∧ t.eAcc.toNat < 2 ^ t.eCnt.val ∧
        t.eCnt.val = s.eCnt.val + 1 ∧ t.eo = s.eo) ∧
      (s.eCnt.val = 5 → t.eAcc = 0 ∧ t.eCnt = 0 ∧
        ∃ v : Value, v.toNat = 2 * s.eAcc.toNat + b.toNat ∧ t.eo = s.eo ++ [⟨v, symbolOf s.cs v⟩])) ∧
    ∃ (t : State) (v : Value), exec .encEnd s = .next t ∧
      v.toNat = (2 * s.eAcc.toNat + 1) * 2 ^ (5 - s.eCnt.val) ∧ t.eo = s.eo ++ [⟨v, symbolOf s.cs v⟩]

/-- ENC_END with a message open emits exactly one item, the pending bits with the sentinel and `5 − E_CNT` zero bits, and
closes the message (R79). -/
def Obligations.EncEndEmitsOne : Prop :=
  ∀ s : State, s.eBusy = true →
    ∃ v : Value, v = ((s.eAcc <<< 1) ||| 1) <<< (5 - s.eCnt.val) ∧
      exec .encEnd s =
        .next { s with eBusy := false, eAcc := 0, eCnt := 0, eo := s.eo ++ [⟨v, symbolOf s.cs v⟩] }

/-- ENC_BIT and ENC_END with no message open only raise SEQUENCE: the bit is lost (R78, R79, R81). -/
def Obligations.EncoderIdleRejects : Prop :=
  ∀ s : State, s.eBusy = false →
    exec .encEnd s = .next { s with errBits := s.errBits ||| 0b00100, lastErr := some .sequence } ∧
    ∀ b : Bool, exec (.encBit b) s =
      .next { s with errBits := s.errBits ||| 0b00100, lastErr := some .sequence }

/-- The message result (R80): after ENC_START, whatever else the host does but end the message or assert reset, and
ENC_END, the items appended to EO are the values `V(b)` of the bits fed, each with its symbol, so the symbols are
`Enc(b, Cload)`. After any first part of the message with `n` bits in it, `(n + 1) div 6` items have been appended: none
by ENC_START, and the ENC_BIT of input index `i` emits exactly when `(i + 2) mod 6 = 0`; ENC_END emits one. -/
def Obligations.EncoderMessageResult : Prop :=
  ∀ (s : State) (mid rest : List HostInput), s.eBusy = false → csValid s = true →
    (∀ x ∈ mid, x.StaysInEncode) →
    s.hostIn = present .encStart :: (mid ++ present .encEnd :: rest) →
    (∀ pre post : List HostInput, mid = pre ++ post → ∃ u, Machine.run (pre.length + 1) s = .next u ∧
      u.eo.length = s.eo.length + ((fedBits pre).length + 1) / 6) ∧
    ∃ t, Machine.run (mid.length + 2) s = .next t ∧ t.hostIn = rest ∧ t.eBusy = false ∧
      t.eo.length = s.eo.length + ((fedBits mid).length + 1) / 6 + 1 ∧
      t.eo = s.eo ++ (values (fedBits mid)).map (fun v => ⟨v, symbolOf s.cs v⟩) ∧
      (t.eo.drop s.eo.length).map EoItem.symbol = enc (fedBits mid) s.cs

/-- Inside a message (R26, R80): after ENC_START and any inputs that keep it open, with `n` bits fed so far, the items
appended are the complete groups of the sentinel and the bits, `(n + 1) div 6` of them, and `E_CNT` and `E_ACC` hold the
bits of the incomplete group. -/
def Obligations.EncoderProgress : Prop :=
  ∀ (s : State) (mid rest : List HostInput), s.eBusy = false → csValid s = true →
    (∀ x ∈ mid, x.StaysInEncode) → s.hostIn = present .encStart :: (mid ++ rest) →
    ∃ t, Machine.run (mid.length + 1) s = .next t ∧ t.hostIn = rest ∧ t.eBusy = true ∧ t.cs = s.cs ∧
      t.eo = s.eo ++ (groupValues (true :: fedBits mid)).map (fun v => ⟨v, symbolOf s.cs v⟩) ∧
      t.eo.length = s.eo.length + ((fedBits mid).length + 1) / 6 ∧
      t.eCnt.val = ((fedBits mid).length + 1) % 6 ∧
      t.eAcc.toNat = ((true :: fedBits mid).drop (6 * (((fedBits mid).length + 1) / 6))).foldl
        (fun a y => 2 * a + y.toNat) 0

/-- R74: `len(Enc(b, C)) = (n + 7) div 6`, and the wrapped sequence is exactly that many groups of six. -/
def Obligations.EncLength : Prop :=
  ∀ (b : List Bool) (C : Charset),
    (enc b C).length = (b.length + 7) / 6 ∧ (wrap b).length = 6 * ((b.length + 7) / 6) ∧ pad b.length ≤ 5

/-- R75: the first value of every encoding is at least 32, and the last is not 0 and is a multiple of `2^pad(n)`; smaller
values occur at later positions, and 0 between the first and the last. -/
def Obligations.EncShape : Prop :=
  (∀ b : List Bool, ∃ v w : Value, (values b).head? = some v ∧ (values b).getLast? = some w ∧
    32 ≤ v.toNat ∧ w ≠ 0 ∧ 2 ^ pad b.length ∣ w.toNat) ∧
  (∀ v : Value, v.toNat < 32 → ∃ (b : List Bool) (k : Nat), 0 < k ∧ k + 1 < (values b).length ∧ (values b)[k]? = some v)

/-! ### The decoder (42_decoder.md) -/

/-- DEC_START with the decoder idle and a valid charset opens a message (R90). -/
def Obligations.DecStartOpens : Prop :=
  ∀ s : State, s.dState = .idle → csValid s = true →
    exec .decStart s =
      .next { s with dState := .run, dLead := false, dHas1 := false, dZ := 0, decResult := .none }

/-- DEC_START's errors in their order (R90, R107), each of which only records the error. -/
def Obligations.DecStartErrors : Prop :=
  ∀ s : State,
    (s.dState ≠ .idle →
      exec .decStart s = .next { s with errBits := s.errBits ||| 0b00100, lastErr := some .sequence }) ∧
    (s.dState = .idle → csValid s = false →
      exec .decStart s = .next { s with errBits := s.errBits ||| 0b00010, lastErr := some .invalidCharset })

/-- DEC_SYM that feeds nothing (R83, R92, R93, R97): an unknown symbol changes no state, FAIL ignores every symbol without
error, and with no message open it only raises SEQUENCE. -/
def Obligations.DecSymFeedsNothing : Prop :=
  ∀ (s : State) (x : Symbol),
    (s.dState = .run → (∀ v : Value, symbolOf s.cs v ≠ x) → exec (.decSym x) s = .next s) ∧
    (s.dState = .fail → exec (.decSym x) s = .next s) ∧
    (s.dState = .idle →
      exec (.decSym x) s = .next { s with errBits := s.errBits ||| 0b00100, lastErr := some .sequence })

/-- DEC_SYM of a known symbol without overflow (R91, R92). `own` is the symbol's bits at buffer indices ≥ 1, most
significant first. With no 1 in `own` nothing is emitted and its zeros join the held ones; otherwise the held bits and
`own` up to its last 1 are emitted, and that 1 and the zeros after it are held. -/
def Obligations.DecSymFeeds : Prop :=
  ∀ (s : State) (x : Symbol) (v : Value) (own : List Bool), s.dState = .run → 6 ≤ s.config.zmax →
    lookup s.cs x = some v → own = (if s.dLead then expand v else (expand v).drop 1) →
    s.dZ + (own.takeWhile (· == false)).length ≤ s.config.zmax →
    ((∀ y ∈ own, y = false) →
      exec (.decSym x) s = .next { s with dLead := true, dZ := s.dZ + own.length }) ∧
    (∀ (p : List Bool) (k : Nat), own = p ++ true :: List.replicate k false →
      exec (.decSym x) s = .next { s with
        dLead := true, dHas1 := true, dZ := k,
        dout := s.dout ++ (if s.dHas1 then [true] else []) ++ List.replicate s.dZ false ++ p })

/-- RUN_OVERFLOW (R93): when the symbol's zeros would take the held zeros past `ZMAX`, the decoder moves to FAIL, its
registers keep their values, nothing is emitted and the error is recorded. -/
def Obligations.DecSymOverflows : Prop :=
  ∀ (s : State) (x : Symbol) (v : Value) (own : List Bool), s.dState = .run → s.dZ ≤ s.config.zmax →
    lookup s.cs x = some v → own = (if s.dLead then expand v else (expand v).drop 1) →
    s.config.zmax < s.dZ + (own.takeWhile (· == false)).length →
    exec (.decSym x) s =
      .next { s with dState := .fail, errBits := s.errBits ||| 0b10000, lastErr := some .runOverflow }

/-- DEC_END (R94): the result by the decoder's state and whether a 1 is held; nothing is emitted; only the malformed case
and the case of no message record an error. -/
def Obligations.DecEndReports : Prop :=
  ∀ s : State,
    (s.dState = .run → s.dHas1 = true → exec .decEnd s =
      .next { s with dState := .idle, dLead := false, dHas1 := false, dZ := 0, decResult := .ok }) ∧
    (s.dState = .run → s.dHas1 = false → exec .decEnd s =
      .next { s with
        dState := .idle, dLead := false, dHas1 := false, dZ := 0, decResult := .malformed
        errBits := s.errBits ||| 0b01000, lastErr := some .malformedInput }) ∧
    (s.dState = .fail → exec .decEnd s =
      .next { s with dState := .idle, dLead := false, dHas1 := false, dZ := 0, decResult := .overflow }) ∧
    (s.dState = .idle → exec .decEnd s =
      .next { s with errBits := s.errBits ||| 0b00100, lastErr := some .sequence })

/-- Inside a message without overflow (R32): with `B` the working bit buffer of the symbols fed so far, the registers
hold the last 1 at an index ≥ 1 and the zeros after it, and the bits emitted are those before it from index 1 on. -/
def Obligations.DecoderProgress : Prop :=
  ∀ (s : State) (mid rest : List HostInput) (B : List Bool), s.config.Legal → s.dState = .idle → csValid s = true →
    (∀ x ∈ mid, x.StaysInDecode) → s.hostIn = present .decStart :: (mid ++ rest) →
    B = buf (fedSymbols mid) s.cs → ¬ LongRun s.config.zmax (B.drop 1) →
    ∃ t, Machine.run (mid.length + 1) s = .next t ∧ t.hostIn = rest ∧ t.dState = .run ∧
      t.dLead = decide (B ≠ []) ∧
      ((∀ y ∈ B.drop 1, y = false) → t.dHas1 = false ∧ t.dZ = (B.drop 1).length ∧ t.dout = s.dout) ∧
      (∀ (p : List Bool) (k : Nat), B.drop 1 = p ++ true :: List.replicate k false →
        t.dHas1 = true ∧ t.dZ = k ∧ t.dout = s.dout ++ p)

/-- The message result (R95, R93): without a run of more than `ZMAX` zeros after the buffer's first bit, DEC_END reports
OK with DO extended by exactly `Dec(s, Cload)` and records no error, or reports MALFORMED, records MALFORMED_INPUT and DO
has nothing of the message. With such a run it reports OVERFLOW, and DO is extended by the bits before the last 1 before
the run. -/
def Obligations.DecoderMessageResult : Prop :=
  ∀ (s : State) (mid rest : List HostInput) (B : List Bool), s.config.Legal → s.dState = .idle → csValid s = true →
    (∀ x ∈ mid, x.StaysInDecode) →
    s.hostIn = present .decStart :: (mid ++ present .decEnd :: rest) →
    B = buf (fedSymbols mid) s.cs →
    ∃ u t, Machine.run (mid.length + 1) s = .next u ∧ Machine.run (mid.length + 2) s = .next t ∧
      t.hostIn = rest ∧ t.dState = .idle ∧
      (¬ LongRun s.config.zmax (B.drop 1) →
        (∀ d, dec (fedSymbols mid) s.cs = some d →
          t.decResult = .ok ∧ t.dout = s.dout ++ d ∧ t.errBits = u.errBits ∧ t.lastErr = u.lastErr) ∧
        (dec (fedSymbols mid) s.cs = none →
          t.decResult = .malformed ∧ t.dout = s.dout ∧ t.errBits = u.errBits ||| 0b01000 ∧
          t.lastErr = some .malformedInput)) ∧
      (∀ p q : List Bool, B.drop 1 = p ++ List.replicate (s.config.zmax + 1) false ++ q →
        ¬ LongRun s.config.zmax p → (∀ y ∈ p.getLast?, y = true) →
        u.dState = .fail ∧ t.decResult = .overflow ∧ t.dout = s.dout ++ p.dropLast ∧
        t.errBits = u.errBits ∧ t.lastErr = u.lastErr)

/-- R87, R88: `Dec` is MalformedInput exactly when the stripped buffer has fewer than 2 bits, which is when the buffer
holds no 1 at an index ≥ 1, and otherwise is the bits from index 1 up to, and not including, the last 1. -/
def Obligations.DecMeaning : Prop :=
  ∀ (ss : List Symbol) (C : Charset),
    (dec ss C = none ↔ (strip (buf ss C)).length < 2) ∧
    (dec ss C = none ↔ ∀ y ∈ (buf ss C).drop 1, y = false) ∧
    (∀ (p : List Bool) (k : Nat), (buf ss C).drop 1 = p ++ true :: List.replicate k false →
      dec ss C = some p)

/-- What the padding validator does not check (R89): a first value below 32 and trailing zero symbols are accepted, and
`Dec` is not injective. -/
def Obligations.DecAcceptsNonCanonical : Prop :=
  ∀ C : Charset, validCharset C.toList = true →
    dec [symbolOf C 1] C = some [false, false, false, false] ∧
    dec [symbolOf C 33] C = some [false, false, false, false] ∧ dec [symbolOf C 16] C = some [] ∧
    ∀ b : List Bool, dec (enc b C ++ [symbolOf C 0]) C = some b

/-- The round-trip law (R96): `Dec(Enc(b, C), C) = b`, because the buffer of the encoding is the wrapped sequence. -/
def Obligations.RoundTripLaw : Prop :=
  ∀ (b : List Bool) (C : Charset), validCharset C.toList = true →
    buf (enc b C) C = wrap b ∧ dec (enc b C) C = some b

/-- The round trip on the block (R96): an encode message of `b` and then a decode message of the symbols it emitted end
OK with DO extended by `b`, when `b` has no run of more than `ZMAX` zeros. -/
def Obligations.BlockRoundTrip : Prop :=
  ∀ (s : State) (b : List Bool) (rest : List HostInput), s.config.Legal → s.eBusy = false → s.dState = .idle →
    csValid s = true → ¬ LongRun s.config.zmax b →
    s.hostIn = (Instr.encStart :: b.map Instr.encBit ++ [Instr.encEnd]).map present ++
      ((Instr.decStart :: (enc b s.cs).map Instr.decSym ++ [Instr.decEnd]).map present ++ rest) →
    ∃ t, Machine.run (b.length + (enc b s.cs).length + 4) s = .next t ∧ t.hostIn = rest ∧
      (t.eo.drop s.eo.length).map EoItem.symbol = enc b s.cs ∧
      t.decResult = .ok ∧ t.dout = s.dout ++ b ∧ t.errBits = s.errBits ∧ t.lastErr = s.lastErr

/-- R97: a symbol outside the charset, inserted anywhere, changes neither the buffer nor the decoded result, and on the
block its DEC_SYM in an open message changes no state. -/
def Obligations.UnknownSymbolTolerated : Prop :=
  ∀ (C : Charset) (x : Symbol) (ss ss' : List Symbol), (∀ v : Value, symbolOf C v ≠ x) →
    buf (ss ++ x :: ss') C = buf (ss ++ ss') C ∧ dec (ss ++ x :: ss') C = dec (ss ++ ss') C ∧
    ∀ s : State, s.cs = C → s.dState ≠ .idle → exec (.decSym x) s = .next s

/-- R98: two charsets give the same encoding exactly when they agree at every value it uses, and each decodes its own
encoding back. -/
def Obligations.CharsetDependence : Prop :=
  ∀ (C C' : Charset) (b : List Bool), validCharset C.toList = true → validCharset C'.toList = true →
    (enc b C = enc b C' ↔ ∀ v ∈ values b, symbolOf C v = symbolOf C' v) ∧
    dec (enc b C) C = some b ∧ dec (enc b C') C' = some b

/-- R99: the empty input encodes to `[C[48]]`, which decodes to the empty sequence; the empty string is MalformedInput, and
the block reports it so with nothing emitted. -/
def Obligations.EmptyCases : Prop :=
  (∀ C : Charset, validCharset C.toList = true →
    enc [] C = [symbolOf C 48] ∧ dec [symbolOf C 48] C = some [] ∧ dec [] C = none) ∧
  (∀ s : State, s.dState = .idle → csValid s = true →
    ∃ u t, exec .decStart s = .next u ∧ exec .decEnd u = .next t ∧ t.decResult = .malformed ∧
      t.lastErr = some .malformedInput ∧ t.errBits = s.errBits ||| 0b01000 ∧ t.dout = s.dout)

/-- R84: a value's six bits, most significant first, have the value back, and every six bits are the expansion of their
value. -/
def Obligations.ExpandInverse : Prop :=
  (∀ v : Value, val (expand v) = v.toNat ∧ (expand v).length = 6 ∧
    ∀ j : Nat, j < 6 → (expand v)[j]? = some (v.getLsbD (5 - j))) ∧
  (∀ g : List Bool, g.length = 6 → val g < 64 ∧ expand (BitVec.ofNat 6 (val g)) = g)

/-! ### Control commands (43_control.md) -/

/-- NOP leaves every state as it is (R100). -/
def Obligations.NopChangesNothing : Prop := ∀ s : State, exec .nop s = .next s

/-- ERR_CLEAR clears the sticky bits and `LAST_ERR` only, in every state (R101). -/
def Obligations.ErrClearAcknowledges : Prop :=
  ∀ s : State, exec .errClear s = .next { s with errBits := 0, lastErr := none }

/-- R44: CS_WRITE, CS_CLEAR, NOP and ERR_CLEAR are idempotent when repeated back to back. -/
def Obligations.IdempotentCommands : Prop :=
  ∀ (s t : State) (i : Instr),
    (i = .nop ∨ i = .errClear ∨ i = .csClear ∨ ∃ idx sym, i = .csWrite idx sym) →
    exec i s = .next t → exec i t = .next t

/-! ### The two engines and the streams (10_state.md R34, 20_memory.md R47) -/

/-- The frame of the encoder commands (R47): no register, result or stream of the decoder, no charset state and nothing
of the host's side changes. -/
def Obligations.EncoderFrame : Prop :=
  ∀ (s t : State) (i : Instr), (i = .encStart ∨ (∃ b, i = .encBit b) ∨ i = .encEnd) → exec i s = .next t →
    t.dState = s.dState ∧ t.dLead = s.dLead ∧ t.dHas1 = s.dHas1 ∧ t.dZ = s.dZ ∧ t.decResult = s.decResult ∧
    t.dout = s.dout ∧ t.cs = s.cs ∧ t.csw = s.csw ∧ t.config = s.config ∧ t.hostIn = s.hostIn ∧
    t.readOut = s.readOut

/-- The frame of the decoder commands (R47): no register or stream of the encoder, no charset state and nothing of the
host's side changes. -/
def Obligations.DecoderFrame : Prop :=
  ∀ (s t : State) (i : Instr), (i = .decStart ∨ (∃ x, i = .decSym x) ∨ i = .decEnd) → exec i s = .next t →
    t.eBusy = s.eBusy ∧ t.eAcc = s.eAcc ∧ t.eCnt = s.eCnt ∧ t.eo = s.eo ∧ t.cs = s.cs ∧ t.csw = s.csw ∧
    t.config = s.config ∧ t.hostIn = s.hostIn ∧ t.readOut = s.readOut

/-- What an encoder command does to the encoder does not depend on the decoder, its stream or the error record (R47): two
states that agree on the charset and the encoder's registers give the same registers and the same new items. -/
def Obligations.EncoderIndependent : Prop :=
  ∀ (s s' t t' : State) (i : Instr), (i = .encStart ∨ (∃ b, i = .encBit b) ∨ i = .encEnd) →
    s.cs = s'.cs → s.csw = s'.csw → s.eBusy = s'.eBusy → s.eAcc = s'.eAcc → s.eCnt = s'.eCnt →
    exec i s = .next t → exec i s' = .next t' →
    t.eBusy = t'.eBusy ∧ t.eAcc = t'.eAcc ∧ t.eCnt = t'.eCnt ∧
    t.eo.drop s.eo.length = t'.eo.drop s'.eo.length

/-- What a decoder command does to the decoder does not depend on the encoder, its stream or the error record (R47). -/
def Obligations.DecoderIndependent : Prop :=
  ∀ (s s' t t' : State) (i : Instr), (i = .decStart ∨ (∃ x, i = .decSym x) ∨ i = .decEnd) →
    s.config = s'.config → s.cs = s'.cs → s.csw = s'.csw → s.dState = s'.dState → s.dLead = s'.dLead →
    s.dHas1 = s'.dHas1 → s.dZ = s'.dZ → s.decResult = s'.decResult →
    exec i s = .next t → exec i s' = .next t' →
    t.dState = t'.dState ∧ t.dLead = t'.dLead ∧ t.dHas1 = t'.dHas1 ∧ t.dZ = t'.dZ ∧
    t.decResult = t'.decResult ∧ t.dout.drop s.dout.length = t'.dout.drop s'.dout.length

/-- R34, R76: over every step the streams are only appended to; EO grows by at most one item, only at an ENC_BIT or
ENC_END, and the item's symbol is the entry of its value; DO grows only at a DEC_SYM. -/
def Obligations.StreamsAppendOnly : Prop :=
  ∀ s t : State, step s = .next t →
    (t.eo = s.eo ∨ ∃ (v : Value) (x : HostInput) (rest : List HostInput), t.eo = s.eo ++ [⟨v, symbolOf s.cs v⟩] ∧
      s.hostIn = x :: rest ∧ ((∃ b, x.instr = some (.encBit b)) ∨ x.instr = some .encEnd)) ∧
    (t.dout = s.dout ∨ ∃ (out : List Bool) (x : HostInput) (rest : List HostInput), t.dout = s.dout ++ out ∧
      s.hostIn = x :: rest ∧ ∃ c, x.instr = some (.decSym c))

/-- R119: a step emits at most `ZMAX + 6` bits on DO, in a state that meets the invariant. -/
def Obligations.BurstBound : Prop :=
  ∀ s t : State, Inv s → step s = .next t → t.dout.length ≤ s.dout.length + s.config.zmax + 6

/-! ### The invariant (10_state.md R27, R28, R31, R32) -/

/-- The invariant holds right after reset (R115). Its clause `ZMAX ≥ 6` holds of the reference value that the model chooses
for `State.reset` (log entry 2). -/
def Obligations.InvAtReset : Prop := Inv State.reset

/-- Every step keeps the invariant (R27, R32, R49, R31, R33). -/
def Obligations.StepKeepsInv : Prop := ∀ s t : State, Inv s → step s = .next t → Inv t
end

