-- ==== Sys2Proof/Laws/Decode.lean ====
section
/-! SUPPORT. The fields of an encoded command and what the decode function finds. -/

namespace Sys2Proof

/-- The operands of a command's word are read back. -/
theorem idxField_encode_csWrite (x : Value) (s : Symbol) : idxField (encode (.csWrite x s)) = x := by
  simp only [idxField, encode]; ext i hi; interval_cases i <;> simp

theorem symField_encode_csWrite (x : Value) (s : Symbol) : symField (encode (.csWrite x s)) = s := by
  simp only [symField, encode]; ext i hi; interval_cases i <;> simp

theorem symField_encode_decSym (s : Symbol) : symField (encode (.decSym s)) = s := by
  simp only [symField, encode]; ext i hi; interval_cases i <;> simp

theorem opField_encode_csWrite (x : Value) (s : Symbol) : opField (encode (.csWrite x s)) = 2 := by
  simp only [opField, encode]; ext i hi; interval_cases i <;> simp

theorem opField_encode_decSym (s : Symbol) : opField (encode (.decSym s)) = 7 := by
  simp only [opField, encode]; ext i hi; interval_cases i <;> simp

theorem encode_csWrite_and_mask (x : Value) (s : Symbol) : encode (.csWrite x s) &&& 0xF8000000 = 0x20000000 := by
  simp only [encode]; ext i hi; interval_cases i <;> simp

theorem encode_decSym_and_mask (s : Symbol) : encode (.decSym s) &&& 0xFFE00000 = 0x70000000 := by
  simp only [encode]; ext i hi; interval_cases i <;> simp

/-- A row found by its opcode is in the map and has that opcode. -/
theorem rowOf_mem {o : BitVec 4} {r : Row} (h : rowOf o = some r) : r ∈ opcodeMap ∧ r.op = o := by
  have := List.find?_some h
  exact ⟨List.mem_of_find?_eq_some h, by simpa using this⟩

/-- When a word decodes to a command. -/
theorem decode_eq_cmd {w : Word} {i : Instr} :
    decode w = .cmd i ↔ ∃ r, rowOf (opField w) = some r ∧ w &&& r.mask = r.pattern ∧ i = withFields r.mnemonic w := by
  unfold decode
  cases h : rowOf (opField w) with
  | none => simp
  | some r =>
    have e : r.selects w = decide (w &&& r.mask = r.pattern) := rfl
    by_cases hs : w &&& r.mask = r.pattern
    · simp only [e, hs, decide_true, if_true, Option.some.injEq, exists_eq_left', true_and, Decoded.cmd.injEq]
      exact eq_comm
    · simp only [e, hs, decide_false, Option.some.injEq, exists_eq_left', false_and, iff_false]; simp

/-- A word a row selects has the row's opcode. -/
theorem opField_of_selected {w : Word} {r : Row} (hr : r ∈ opcodeMap) (h : w &&& r.mask = r.pattern) :
    opField w = r.op := by
  have key : ∀ r ∈ opcodeMap, r.mask.extractLsb' 28 4 = 15#4 ∧ r.pattern.extractLsb' 28 4 = r.op := by decide
  obtain ⟨h1, h2⟩ := key r hr
  have := congrArg (BitVec.extractLsb' 28 4) h
  rw [BitVec.extractLsb'_and, h1, h2] at this
  rw [← this]
  simp only [opField]
  ext i hi; interval_cases i <;> simp

/-- Every row is found by its opcode. -/
theorem rowOf_op : ∀ r ∈ opcodeMap, rowOf r.op = some r := by decide

end Sys2Proof
end

