-- ==== Sys2Proof/Laws/State.lean ====
section
/-! SUPPORT. One lemma per field per shared update, so that no proof unfolds a record update. -/

namespace Sys2Proof.Machine

/-! ### recordError -/

@[simp] theorem recordError_config (e : ErrorCause) (s : State) : (recordError e s).config = s.config := rfl
@[simp] theorem recordError_cs (e : ErrorCause) (s : State) : (recordError e s).cs = s.cs := rfl
@[simp] theorem recordError_csw (e : ErrorCause) (s : State) : (recordError e s).csw = s.csw := rfl
@[simp] theorem recordError_eBusy (e : ErrorCause) (s : State) : (recordError e s).eBusy = s.eBusy := rfl
@[simp] theorem recordError_eAcc (e : ErrorCause) (s : State) : (recordError e s).eAcc = s.eAcc := rfl
@[simp] theorem recordError_eCnt (e : ErrorCause) (s : State) : (recordError e s).eCnt = s.eCnt := rfl
@[simp] theorem recordError_dState (e : ErrorCause) (s : State) : (recordError e s).dState = s.dState := rfl
@[simp] theorem recordError_dLead (e : ErrorCause) (s : State) : (recordError e s).dLead = s.dLead := rfl
@[simp] theorem recordError_dHas1 (e : ErrorCause) (s : State) : (recordError e s).dHas1 = s.dHas1 := rfl
@[simp] theorem recordError_dZ (e : ErrorCause) (s : State) : (recordError e s).dZ = s.dZ := rfl
@[simp] theorem recordError_errBits (e : ErrorCause) (s : State) : (recordError e s).errBits = s.errBits ||| e.sticky := rfl
@[simp] theorem recordError_lastErr (e : ErrorCause) (s : State) : (recordError e s).lastErr = some e := rfl
@[simp] theorem recordError_decResult (e : ErrorCause) (s : State) : (recordError e s).decResult = s.decResult := rfl
@[simp] theorem recordError_eo (e : ErrorCause) (s : State) : (recordError e s).eo = s.eo := rfl
@[simp] theorem recordError_dout (e : ErrorCause) (s : State) : (recordError e s).dout = s.dout := rfl
@[simp] theorem recordError_hostIn (e : ErrorCause) (s : State) : (recordError e s).hostIn = s.hostIn := rfl
@[simp] theorem recordError_readOut (e : ErrorCause) (s : State) : (recordError e s).readOut = s.readOut := rfl
@[simp] theorem recordError_draws (e : ErrorCause) (s : State) : (recordError e s).draws = s.draws := rfl

/-! ### acknowledge -/

@[simp] theorem acknowledge_config (s : State) : (acknowledge s).config = s.config := rfl
@[simp] theorem acknowledge_cs (s : State) : (acknowledge s).cs = s.cs := rfl
@[simp] theorem acknowledge_csw (s : State) : (acknowledge s).csw = s.csw := rfl
@[simp] theorem acknowledge_eBusy (s : State) : (acknowledge s).eBusy = s.eBusy := rfl
@[simp] theorem acknowledge_eAcc (s : State) : (acknowledge s).eAcc = s.eAcc := rfl
@[simp] theorem acknowledge_eCnt (s : State) : (acknowledge s).eCnt = s.eCnt := rfl
@[simp] theorem acknowledge_dState (s : State) : (acknowledge s).dState = s.dState := rfl
@[simp] theorem acknowledge_dLead (s : State) : (acknowledge s).dLead = s.dLead := rfl
@[simp] theorem acknowledge_dHas1 (s : State) : (acknowledge s).dHas1 = s.dHas1 := rfl
@[simp] theorem acknowledge_dZ (s : State) : (acknowledge s).dZ = s.dZ := rfl
@[simp] theorem acknowledge_errBits (s : State) : (acknowledge s).errBits = 0 := rfl
@[simp] theorem acknowledge_lastErr (s : State) : (acknowledge s).lastErr = none := rfl
@[simp] theorem acknowledge_decResult (s : State) : (acknowledge s).decResult = s.decResult := rfl
@[simp] theorem acknowledge_eo (s : State) : (acknowledge s).eo = s.eo := rfl
@[simp] theorem acknowledge_dout (s : State) : (acknowledge s).dout = s.dout := rfl
@[simp] theorem acknowledge_hostIn (s : State) : (acknowledge s).hostIn = s.hostIn := rfl
@[simp] theorem acknowledge_readOut (s : State) : (acknowledge s).readOut = s.readOut := rfl
@[simp] theorem acknowledge_draws (s : State) : (acknowledge s).draws = s.draws := rfl

/-! ### clearMask -/

@[simp] theorem clearMask_config (s : State) : (clearMask s).config = s.config := rfl
@[simp] theorem clearMask_cs (s : State) : (clearMask s).cs = s.cs := rfl
@[simp] theorem clearMask_csw (s : State) : (clearMask s).csw = 0 := rfl
@[simp] theorem clearMask_eBusy (s : State) : (clearMask s).eBusy = s.eBusy := rfl
@[simp] theorem clearMask_eAcc (s : State) : (clearMask s).eAcc = s.eAcc := rfl
@[simp] theorem clearMask_eCnt (s : State) : (clearMask s).eCnt = s.eCnt := rfl
@[simp] theorem clearMask_dState (s : State) : (clearMask s).dState = s.dState := rfl
@[simp] theorem clearMask_dLead (s : State) : (clearMask s).dLead = s.dLead := rfl
@[simp] theorem clearMask_dHas1 (s : State) : (clearMask s).dHas1 = s.dHas1 := rfl
@[simp] theorem clearMask_dZ (s : State) : (clearMask s).dZ = s.dZ := rfl
@[simp] theorem clearMask_errBits (s : State) : (clearMask s).errBits = s.errBits := rfl
@[simp] theorem clearMask_lastErr (s : State) : (clearMask s).lastErr = s.lastErr := rfl
@[simp] theorem clearMask_decResult (s : State) : (clearMask s).decResult = s.decResult := rfl
@[simp] theorem clearMask_eo (s : State) : (clearMask s).eo = s.eo := rfl
@[simp] theorem clearMask_dout (s : State) : (clearMask s).dout = s.dout := rfl
@[simp] theorem clearMask_hostIn (s : State) : (clearMask s).hostIn = s.hostIn := rfl
@[simp] theorem clearMask_readOut (s : State) : (clearMask s).readOut = s.readOut := rfl
@[simp] theorem clearMask_draws (s : State) : (clearMask s).draws = s.draws := rfl

/-! ### writeEntry -/

@[simp] theorem writeEntry_config (i : Value) (c : Symbol) (s : State) : (writeEntry i c s).config = s.config := rfl
@[simp] theorem writeEntry_cs (i : Value) (c : Symbol) (s : State) : (writeEntry i c s).cs = withEntry s.cs i c := rfl
@[simp] theorem writeEntry_csw (i : Value) (c : Symbol) (s : State) : (writeEntry i c s).csw = s.csw ||| (1#64 <<< i.toNat) := rfl
@[simp] theorem writeEntry_eBusy (i : Value) (c : Symbol) (s : State) : (writeEntry i c s).eBusy = s.eBusy := rfl
@[simp] theorem writeEntry_eAcc (i : Value) (c : Symbol) (s : State) : (writeEntry i c s).eAcc = s.eAcc := rfl
@[simp] theorem writeEntry_eCnt (i : Value) (c : Symbol) (s : State) : (writeEntry i c s).eCnt = s.eCnt := rfl
@[simp] theorem writeEntry_dState (i : Value) (c : Symbol) (s : State) : (writeEntry i c s).dState = s.dState := rfl
@[simp] theorem writeEntry_dLead (i : Value) (c : Symbol) (s : State) : (writeEntry i c s).dLead = s.dLead := rfl
@[simp] theorem writeEntry_dHas1 (i : Value) (c : Symbol) (s : State) : (writeEntry i c s).dHas1 = s.dHas1 := rfl
@[simp] theorem writeEntry_dZ (i : Value) (c : Symbol) (s : State) : (writeEntry i c s).dZ = s.dZ := rfl
@[simp] theorem writeEntry_errBits (i : Value) (c : Symbol) (s : State) : (writeEntry i c s).errBits = s.errBits := rfl
@[simp] theorem writeEntry_lastErr (i : Value) (c : Symbol) (s : State) : (writeEntry i c s).lastErr = s.lastErr := rfl
@[simp] theorem writeEntry_decResult (i : Value) (c : Symbol) (s : State) : (writeEntry i c s).decResult = s.decResult := rfl
@[simp] theorem writeEntry_eo (i : Value) (c : Symbol) (s : State) : (writeEntry i c s).eo = s.eo := rfl
@[simp] theorem writeEntry_dout (i : Value) (c : Symbol) (s : State) : (writeEntry i c s).dout = s.dout := rfl
@[simp] theorem writeEntry_hostIn (i : Value) (c : Symbol) (s : State) : (writeEntry i c s).hostIn = s.hostIn := rfl
@[simp] theorem writeEntry_readOut (i : Value) (c : Symbol) (s : State) : (writeEntry i c s).readOut = s.readOut := rfl
@[simp] theorem writeEntry_draws (i : Value) (c : Symbol) (s : State) : (writeEntry i c s).draws = s.draws := rfl

/-! ### emitE -/

@[simp] theorem emitE_config (v : Value) (c : Symbol) (s : State) : (emitE v c s).config = s.config := rfl
@[simp] theorem emitE_cs (v : Value) (c : Symbol) (s : State) : (emitE v c s).cs = s.cs := rfl
@[simp] theorem emitE_csw (v : Value) (c : Symbol) (s : State) : (emitE v c s).csw = s.csw := rfl
@[simp] theorem emitE_eBusy (v : Value) (c : Symbol) (s : State) : (emitE v c s).eBusy = s.eBusy := rfl
@[simp] theorem emitE_eAcc (v : Value) (c : Symbol) (s : State) : (emitE v c s).eAcc = s.eAcc := rfl
@[simp] theorem emitE_eCnt (v : Value) (c : Symbol) (s : State) : (emitE v c s).eCnt = s.eCnt := rfl
@[simp] theorem emitE_dState (v : Value) (c : Symbol) (s : State) : (emitE v c s).dState = s.dState := rfl
@[simp] theorem emitE_dLead (v : Value) (c : Symbol) (s : State) : (emitE v c s).dLead = s.dLead := rfl
@[simp] theorem emitE_dHas1 (v : Value) (c : Symbol) (s : State) : (emitE v c s).dHas1 = s.dHas1 := rfl
@[simp] theorem emitE_dZ (v : Value) (c : Symbol) (s : State) : (emitE v c s).dZ = s.dZ := rfl
@[simp] theorem emitE_errBits (v : Value) (c : Symbol) (s : State) : (emitE v c s).errBits = s.errBits := rfl
@[simp] theorem emitE_lastErr (v : Value) (c : Symbol) (s : State) : (emitE v c s).lastErr = s.lastErr := rfl
@[simp] theorem emitE_decResult (v : Value) (c : Symbol) (s : State) : (emitE v c s).decResult = s.decResult := rfl
@[simp] theorem emitE_eo (v : Value) (c : Symbol) (s : State) : (emitE v c s).eo = s.eo ++ [⟨v, c⟩] := rfl
@[simp] theorem emitE_dout (v : Value) (c : Symbol) (s : State) : (emitE v c s).dout = s.dout := rfl
@[simp] theorem emitE_hostIn (v : Value) (c : Symbol) (s : State) : (emitE v c s).hostIn = s.hostIn := rfl
@[simp] theorem emitE_readOut (v : Value) (c : Symbol) (s : State) : (emitE v c s).readOut = s.readOut := rfl
@[simp] theorem emitE_draws (v : Value) (c : Symbol) (s : State) : (emitE v c s).draws = s.draws := rfl

/-! ### emitD -/

@[simp] theorem emitD_config (out : List Bool) (s : State) : (emitD out s).config = s.config := rfl
@[simp] theorem emitD_cs (out : List Bool) (s : State) : (emitD out s).cs = s.cs := rfl
@[simp] theorem emitD_csw (out : List Bool) (s : State) : (emitD out s).csw = s.csw := rfl
@[simp] theorem emitD_eBusy (out : List Bool) (s : State) : (emitD out s).eBusy = s.eBusy := rfl
@[simp] theorem emitD_eAcc (out : List Bool) (s : State) : (emitD out s).eAcc = s.eAcc := rfl
@[simp] theorem emitD_eCnt (out : List Bool) (s : State) : (emitD out s).eCnt = s.eCnt := rfl
@[simp] theorem emitD_dState (out : List Bool) (s : State) : (emitD out s).dState = s.dState := rfl
@[simp] theorem emitD_dLead (out : List Bool) (s : State) : (emitD out s).dLead = s.dLead := rfl
@[simp] theorem emitD_dHas1 (out : List Bool) (s : State) : (emitD out s).dHas1 = s.dHas1 := rfl
@[simp] theorem emitD_dZ (out : List Bool) (s : State) : (emitD out s).dZ = s.dZ := rfl
@[simp] theorem emitD_errBits (out : List Bool) (s : State) : (emitD out s).errBits = s.errBits := rfl
@[simp] theorem emitD_lastErr (out : List Bool) (s : State) : (emitD out s).lastErr = s.lastErr := rfl
@[simp] theorem emitD_decResult (out : List Bool) (s : State) : (emitD out s).decResult = s.decResult := rfl
@[simp] theorem emitD_eo (out : List Bool) (s : State) : (emitD out s).eo = s.eo := rfl
@[simp] theorem emitD_dout (out : List Bool) (s : State) : (emitD out s).dout = s.dout ++ out := rfl
@[simp] theorem emitD_hostIn (out : List Bool) (s : State) : (emitD out s).hostIn = s.hostIn := rfl
@[simp] theorem emitD_readOut (out : List Bool) (s : State) : (emitD out s).readOut = s.readOut := rfl
@[simp] theorem emitD_draws (out : List Bool) (s : State) : (emitD out s).draws = s.draws := rfl

/-! ### finishFeed -/

@[simp] theorem finishFeed_config (f : Feed) (s : State) : (finishFeed f s).config = s.config := rfl
@[simp] theorem finishFeed_cs (f : Feed) (s : State) : (finishFeed f s).cs = s.cs := rfl
@[simp] theorem finishFeed_csw (f : Feed) (s : State) : (finishFeed f s).csw = s.csw := rfl
@[simp] theorem finishFeed_eBusy (f : Feed) (s : State) : (finishFeed f s).eBusy = s.eBusy := rfl
@[simp] theorem finishFeed_eAcc (f : Feed) (s : State) : (finishFeed f s).eAcc = s.eAcc := rfl
@[simp] theorem finishFeed_eCnt (f : Feed) (s : State) : (finishFeed f s).eCnt = s.eCnt := rfl
@[simp] theorem finishFeed_dState (f : Feed) (s : State) : (finishFeed f s).dState = s.dState := rfl
@[simp] theorem finishFeed_dLead (f : Feed) (s : State) : (finishFeed f s).dLead = f.lead := rfl
@[simp] theorem finishFeed_dHas1 (f : Feed) (s : State) : (finishFeed f s).dHas1 = f.has1 := rfl
@[simp] theorem finishFeed_dZ (f : Feed) (s : State) : (finishFeed f s).dZ = f.z := rfl
@[simp] theorem finishFeed_errBits (f : Feed) (s : State) : (finishFeed f s).errBits = s.errBits := rfl
@[simp] theorem finishFeed_lastErr (f : Feed) (s : State) : (finishFeed f s).lastErr = s.lastErr := rfl
@[simp] theorem finishFeed_decResult (f : Feed) (s : State) : (finishFeed f s).decResult = s.decResult := rfl
@[simp] theorem finishFeed_eo (f : Feed) (s : State) : (finishFeed f s).eo = s.eo := rfl
@[simp] theorem finishFeed_dout (f : Feed) (s : State) : (finishFeed f s).dout = s.dout ++ f.out := rfl
@[simp] theorem finishFeed_hostIn (f : Feed) (s : State) : (finishFeed f s).hostIn = s.hostIn := rfl
@[simp] theorem finishFeed_readOut (f : Feed) (s : State) : (finishFeed f s).readOut = s.readOut := rfl
@[simp] theorem finishFeed_draws (f : Feed) (s : State) : (finishFeed f s).draws = s.draws := rfl

/-! ### closeDecoder -/

@[simp] theorem closeDecoder_config (r : DecResult) (s : State) : (closeDecoder r s).config = s.config := rfl
@[simp] theorem closeDecoder_cs (r : DecResult) (s : State) : (closeDecoder r s).cs = s.cs := rfl
@[simp] theorem closeDecoder_csw (r : DecResult) (s : State) : (closeDecoder r s).csw = s.csw := rfl
@[simp] theorem closeDecoder_eBusy (r : DecResult) (s : State) : (closeDecoder r s).eBusy = s.eBusy := rfl
@[simp] theorem closeDecoder_eAcc (r : DecResult) (s : State) : (closeDecoder r s).eAcc = s.eAcc := rfl
@[simp] theorem closeDecoder_eCnt (r : DecResult) (s : State) : (closeDecoder r s).eCnt = s.eCnt := rfl
@[simp] theorem closeDecoder_dState (r : DecResult) (s : State) : (closeDecoder r s).dState = .idle := rfl
@[simp] theorem closeDecoder_dLead (r : DecResult) (s : State) : (closeDecoder r s).dLead = false := rfl
@[simp] theorem closeDecoder_dHas1 (r : DecResult) (s : State) : (closeDecoder r s).dHas1 = false := rfl
@[simp] theorem closeDecoder_dZ (r : DecResult) (s : State) : (closeDecoder r s).dZ = 0 := rfl
@[simp] theorem closeDecoder_errBits (r : DecResult) (s : State) : (closeDecoder r s).errBits = s.errBits := rfl
@[simp] theorem closeDecoder_lastErr (r : DecResult) (s : State) : (closeDecoder r s).lastErr = s.lastErr := rfl
@[simp] theorem closeDecoder_decResult (r : DecResult) (s : State) : (closeDecoder r s).decResult = r := rfl
@[simp] theorem closeDecoder_eo (r : DecResult) (s : State) : (closeDecoder r s).eo = s.eo := rfl
@[simp] theorem closeDecoder_dout (r : DecResult) (s : State) : (closeDecoder r s).dout = s.dout := rfl
@[simp] theorem closeDecoder_hostIn (r : DecResult) (s : State) : (closeDecoder r s).hostIn = s.hostIn := rfl
@[simp] theorem closeDecoder_readOut (r : DecResult) (s : State) : (closeDecoder r s).readOut = s.readOut := rfl
@[simp] theorem closeDecoder_draws (r : DecResult) (s : State) : (closeDecoder r s).draws = s.draws := rfl

/-! ### serveRead -/

@[simp] theorem serveRead_config (a : ReadAddr) (s : State) : (serveRead a s).config = s.config := rfl
@[simp] theorem serveRead_cs (a : ReadAddr) (s : State) : (serveRead a s).cs = s.cs := rfl
@[simp] theorem serveRead_csw (a : ReadAddr) (s : State) : (serveRead a s).csw = s.csw := rfl
@[simp] theorem serveRead_eBusy (a : ReadAddr) (s : State) : (serveRead a s).eBusy = s.eBusy := rfl
@[simp] theorem serveRead_eAcc (a : ReadAddr) (s : State) : (serveRead a s).eAcc = s.eAcc := rfl
@[simp] theorem serveRead_eCnt (a : ReadAddr) (s : State) : (serveRead a s).eCnt = s.eCnt := rfl
@[simp] theorem serveRead_dState (a : ReadAddr) (s : State) : (serveRead a s).dState = s.dState := rfl
@[simp] theorem serveRead_dLead (a : ReadAddr) (s : State) : (serveRead a s).dLead = s.dLead := rfl
@[simp] theorem serveRead_dHas1 (a : ReadAddr) (s : State) : (serveRead a s).dHas1 = s.dHas1 := rfl
@[simp] theorem serveRead_dZ (a : ReadAddr) (s : State) : (serveRead a s).dZ = s.dZ := rfl
@[simp] theorem serveRead_errBits (a : ReadAddr) (s : State) : (serveRead a s).errBits = s.errBits := rfl
@[simp] theorem serveRead_lastErr (a : ReadAddr) (s : State) : (serveRead a s).lastErr = s.lastErr := rfl
@[simp] theorem serveRead_decResult (a : ReadAddr) (s : State) : (serveRead a s).decResult = s.decResult := rfl
@[simp] theorem serveRead_eo (a : ReadAddr) (s : State) : (serveRead a s).eo = s.eo := rfl
@[simp] theorem serveRead_dout (a : ReadAddr) (s : State) : (serveRead a s).dout = s.dout := rfl
@[simp] theorem serveRead_hostIn (a : ReadAddr) (s : State) : (serveRead a s).hostIn = s.hostIn := rfl
@[simp] theorem serveRead_readOut (a : ReadAddr) (s : State) : (serveRead a s).readOut = s.readOut ++ [⟨a, readWord s a⟩] := rfl
@[simp] theorem serveRead_draws (a : ReadAddr) (s : State) : (serveRead a s).draws = s.draws := rfl

/-! ### assertReset -/

@[simp] theorem assertReset_config (s : State) : (assertReset s).config = s.config := by simp only [assertReset]
@[simp] theorem assertReset_cs (s : State) : (assertReset s).cs = freeCharset s.draws := rfl
@[simp] theorem assertReset_csw (s : State) : (assertReset s).csw = 0 := rfl
@[simp] theorem assertReset_eBusy (s : State) : (assertReset s).eBusy = false := rfl
@[simp] theorem assertReset_eAcc (s : State) : (assertReset s).eAcc = 0 := rfl
@[simp] theorem assertReset_eCnt (s : State) : (assertReset s).eCnt = 0 := rfl
@[simp] theorem assertReset_dState (s : State) : (assertReset s).dState = .idle := rfl
@[simp] theorem assertReset_dLead (s : State) : (assertReset s).dLead = false := rfl
@[simp] theorem assertReset_dHas1 (s : State) : (assertReset s).dHas1 = false := rfl
@[simp] theorem assertReset_dZ (s : State) : (assertReset s).dZ = 0 := rfl
@[simp] theorem assertReset_errBits (s : State) : (assertReset s).errBits = 0 := rfl
@[simp] theorem assertReset_lastErr (s : State) : (assertReset s).lastErr = none := rfl
@[simp] theorem assertReset_decResult (s : State) : (assertReset s).decResult = .none := rfl
@[simp] theorem assertReset_eo (s : State) : (assertReset s).eo = s.eo := by simp only [assertReset]
@[simp] theorem assertReset_dout (s : State) : (assertReset s).dout = s.dout := by simp only [assertReset]
@[simp] theorem assertReset_hostIn (s : State) : (assertReset s).hostIn = s.hostIn := by simp only [assertReset]
@[simp] theorem assertReset_readOut (s : State) : (assertReset s).readOut = s.readOut := by simp only [assertReset]
@[simp] theorem assertReset_draws (s : State) : (assertReset s).draws = s.draws + 64 := rfl

/-! ### push and padGroup: what they leave alone -/

@[simp] theorem push_config (b : Bool) (s : State) : (push b s).config = s.config := by unfold push; split <;> rfl
@[simp] theorem push_cs (b : Bool) (s : State) : (push b s).cs = s.cs := by unfold push; split <;> rfl
@[simp] theorem push_csw (b : Bool) (s : State) : (push b s).csw = s.csw := by unfold push; split <;> rfl
@[simp] theorem push_eBusy (b : Bool) (s : State) : (push b s).eBusy = s.eBusy := by unfold push; split <;> rfl
@[simp] theorem push_dState (b : Bool) (s : State) : (push b s).dState = s.dState := by unfold push; split <;> rfl
@[simp] theorem push_dLead (b : Bool) (s : State) : (push b s).dLead = s.dLead := by unfold push; split <;> rfl
@[simp] theorem push_dHas1 (b : Bool) (s : State) : (push b s).dHas1 = s.dHas1 := by unfold push; split <;> rfl
@[simp] theorem push_dZ (b : Bool) (s : State) : (push b s).dZ = s.dZ := by unfold push; split <;> rfl
@[simp] theorem push_errBits (b : Bool) (s : State) : (push b s).errBits = s.errBits := by unfold push; split <;> rfl
@[simp] theorem push_lastErr (b : Bool) (s : State) : (push b s).lastErr = s.lastErr := by unfold push; split <;> rfl
@[simp] theorem push_decResult (b : Bool) (s : State) : (push b s).decResult = s.decResult := by unfold push; split <;> rfl
@[simp] theorem push_dout (b : Bool) (s : State) : (push b s).dout = s.dout := by unfold push; split <;> rfl
@[simp] theorem push_hostIn (b : Bool) (s : State) : (push b s).hostIn = s.hostIn := by unfold push; split <;> rfl
@[simp] theorem push_readOut (b : Bool) (s : State) : (push b s).readOut = s.readOut := by unfold push; split <;> rfl
@[simp] theorem push_draws (b : Bool) (s : State) : (push b s).draws = s.draws := by unfold push; split <;> rfl

@[simp] theorem padGroup_config (s : State) : (padGroup s).config = s.config := by unfold padGroup; split <;> rfl
@[simp] theorem padGroup_cs (s : State) : (padGroup s).cs = s.cs := by unfold padGroup; split <;> rfl
@[simp] theorem padGroup_csw (s : State) : (padGroup s).csw = s.csw := by unfold padGroup; split <;> rfl
@[simp] theorem padGroup_eBusy (s : State) : (padGroup s).eBusy = s.eBusy := by unfold padGroup; split <;> rfl
@[simp] theorem padGroup_eAcc (s : State) : (padGroup s).eAcc = s.eAcc := by unfold padGroup; split <;> rfl
@[simp] theorem padGroup_eCnt (s : State) : (padGroup s).eCnt = s.eCnt := by unfold padGroup; split <;> rfl
@[simp] theorem padGroup_dState (s : State) : (padGroup s).dState = s.dState := by unfold padGroup; split <;> rfl
@[simp] theorem padGroup_dLead (s : State) : (padGroup s).dLead = s.dLead := by unfold padGroup; split <;> rfl
@[simp] theorem padGroup_dHas1 (s : State) : (padGroup s).dHas1 = s.dHas1 := by unfold padGroup; split <;> rfl
@[simp] theorem padGroup_dZ (s : State) : (padGroup s).dZ = s.dZ := by unfold padGroup; split <;> rfl
@[simp] theorem padGroup_errBits (s : State) : (padGroup s).errBits = s.errBits := by unfold padGroup; split <;> rfl
@[simp] theorem padGroup_lastErr (s : State) : (padGroup s).lastErr = s.lastErr := by unfold padGroup; split <;> rfl
@[simp] theorem padGroup_decResult (s : State) : (padGroup s).decResult = s.decResult := by unfold padGroup; split <;> rfl
@[simp] theorem padGroup_dout (s : State) : (padGroup s).dout = s.dout := by unfold padGroup; split <;> rfl
@[simp] theorem padGroup_hostIn (s : State) : (padGroup s).hostIn = s.hostIn := by unfold padGroup; split <;> rfl
@[simp] theorem padGroup_readOut (s : State) : (padGroup s).readOut = s.readOut := by unfold padGroup; split <;> rfl
@[simp] theorem padGroup_draws (s : State) : (padGroup s).draws = s.draws := by unfold padGroup; split <;> rfl

end Sys2Proof.Machine
end

