-- ==== Sys2Proof/Laws/Ops.lean ====
section
/-! SUPPORT. For each shared operation, what it can do, said once. -/

namespace Sys2Proof.Machine

/-! ### Operands and the charset table -/

@[simp] theorem symbolOf_withEntry_self (C : Charset) (i : Value) (c : Symbol) :
    symbolOf (withEntry C i c) i = c := by
  simp [symbolOf, withEntry]

theorem symbolOf_withEntry_of_ne (C : Charset) {i v : Value} (c : Symbol) (h : v ≠ i) :
    symbolOf (withEntry C i c) v = symbolOf C v := by
  have : i.toNat ≠ v.toNat := fun e => h (BitVec.eq_of_toNat_eq e.symm)
  simp [symbolOf, withEntry, this]

/-- A symbol found is the entry of the value found. -/
theorem symbolOf_of_lookup {C : Charset} {x : Symbol} {v : Value} (h : lookup C x = some v) :
    symbolOf C v = x := by
  simp only [lookup, Option.map_eq_some_iff] at h
  obtain ⟨k, hk, rfl⟩ := h
  obtain ⟨hlt, hx, -⟩ := List.findIdx?_eq_some_iff_getElem.mp hk
  have h64 : k < 64 := by simpa using hlt
  simpa [symbolOf, Nat.mod_eq_of_lt h64] using hx

/-- A lookup that finds nothing means that no entry is the symbol. -/
theorem lookup_eq_none {C : Charset} {x : Symbol} :
    lookup C x = none ↔ ∀ v : Value, symbolOf C v ≠ x := by
  simp only [lookup, Option.map_eq_none_iff, List.findIdx?_eq_none_iff]
  constructor
  · intro h v e
    have := h (symbolOf C v) (by simp [symbolOf])
    simp [e] at this
  · intro h y hy
    obtain ⟨k, hk, rfl⟩ := List.getElem_of_mem hy
    have h64 : k < 64 := by simpa using hk
    have := h (BitVec.ofNat 6 k)
    simpa [symbolOf, Nat.mod_eq_of_lt h64] using this

@[simp] theorem expand_length (v : Value) : (expand v).length = 6 := rfl

/-! ### The encoder's push -/

/-- The shift-in as a number: nothing is lost at the top, and one more bit is pending. -/
theorem shiftIn_toNat (a : BitVec 6) (c : Nat) (b : Bool) (hc : c < 6) (h : a.toNat < 2 ^ c) :
    ((a <<< 1) ||| bitOperand b).toNat = 2 * a.toNat + b.toNat ∧ 2 * a.toNat + b.toNat < 2 ^ (c + 1) := by
  have hp : 2 ^ c ≤ 2 ^ 5 := Nat.pow_le_pow_right (by omega) (by omega)
  have hb : b.toNat < 2 := by cases b <;> decide
  have hadd : (a <<< 1) ||| bitOperand b = (a <<< 1) + bitOperand b := by
    rw [BitVec.add_eq_or_of_and_eq_zero]
    simp only [bitOperand]
    ext i hi
    interval_cases i <;> simp
  refine ⟨?_, by rw [Nat.pow_succ]; omega⟩
  rw [hadd]
  simp only [bitOperand, BitVec.toNat_add, BitVec.toNat_shiftLeft, Nat.shiftLeft_eq]
  cases b <;> simp <;> omega

/-- Fewer than five bits pending: the bit joins them. -/
theorem push_pending (b : Bool) (s : State) (h : s.eCnt.val + 1 < 6) :
    push b s = { s with eAcc := (s.eAcc <<< 1) ||| bitOperand b, eCnt := ⟨s.eCnt.val + 1, h⟩ } := by
  simp [push, h]

/-- Five bits pending: the group is complete and is emitted. -/
theorem push_complete (b : Bool) (s : State) (h : s.eCnt.val = 5) :
    push b s = { s with
      eAcc := 0, eCnt := 0
      eo := s.eo ++ [⟨(s.eAcc <<< 1) ||| bitOperand b, symbolOf s.cs ((s.eAcc <<< 1) ||| bitOperand b)⟩] } := by
  simp [push, h, emitE]

/-- A group still pending is padded and emitted; with none pending nothing happens. -/
theorem padGroup_cases (s : State) :
    (s.eCnt = 0 ∧ padGroup s = s) ∨
    (s.eCnt ≠ 0 ∧ padGroup s = emitE (s.eAcc <<< (6 - s.eCnt.val)) (symbolOf s.cs (s.eAcc <<< (6 - s.eCnt.val))) s) := by
  by_cases h : s.eCnt = 0 <;> simp [padGroup, h]

/-! ### The decoder's feed -/

/-- Everything one feed can do. -/
theorem feed_cases (zmax : Nat) (f : Feed) (x : Bool) :
    (f.lead = false ∧ feed zmax f x = some { f with lead := true }) ∨
    (f.lead = true ∧ x = true ∧ feed zmax f x = some { f with has1 := true, z := 0, out := f.out ++ f.held }) ∨
    (f.lead = true ∧ x = false ∧ f.z = zmax ∧ feed zmax f x = none) ∨
    (f.lead = true ∧ x = false ∧ f.z ≠ zmax ∧ feed zmax f x = some { f with z := f.z + 1 }) := by
  cases hl : f.lead <;> cases x <;> by_cases hz : f.z = zmax <;> simp [feed, hl, hz]

@[simp] theorem feedAll_nil (zmax : Nat) (f : Feed) : feedAll zmax f [] = some f := rfl

theorem feedAll_cons (zmax : Nat) (f : Feed) (x : Bool) (xs : List Bool) :
    feedAll zmax f (x :: xs) = (feed zmax f x).bind fun f' => feedAll zmax f' xs := by
  cases h : feed zmax f x <;> simp [feedAll, h]

/-- Feeding a sequence is feeding its parts in order. -/
theorem feedAll_append (zmax : Nat) (f : Feed) (xs ys : List Bool) :
    feedAll zmax f (xs ++ ys) = (feedAll zmax f xs).bind fun f' => feedAll zmax f' ys := by
  induction xs generalizing f with
  | nil => rfl
  | cons x xs ih => cases h : feed zmax f x <;> simp [feedAll_cons, h, ih]

/-- Zeros that fit are held. -/
theorem feedAll_zeros (zmax : Nat) (f : Feed) (n : Nat) (hl : f.lead = true) (h : f.z + n ≤ zmax) :
    feedAll zmax f (List.replicate n false) = some { f with z := f.z + n } := by
  induction n generalizing f with
  | zero => rfl
  | succ n ih =>
    have hz : f.z ≠ zmax := by omega
    have hf : feed zmax f false = some { f with z := f.z + 1 } := by simp [feed, hl, hz]
    have hi := ih { f with z := f.z + 1 } hl (by simp only; omega)
    simp only [List.replicate_succ, feedAll_cons, hf, Option.bind_some, hi]
    congr 2
    omega

/-- Zeros that do not fit overflow. -/
theorem feedAll_zeros_overflow (zmax : Nat) (f : Feed) (n : Nat) (hl : f.lead = true) (hz : f.z ≤ zmax)
    (h : zmax < f.z + n) : feedAll zmax f (List.replicate n false) = none := by
  induction n generalizing f with
  | zero => omega
  | succ n ih =>
    rcases Nat.lt_or_eq_of_le hz with hlt | he
    · have hne : f.z ≠ zmax := by omega
      have hf : feed zmax f false = some { f with z := f.z + 1 } := by simp [feed, hl, hne]
      simp only [List.replicate_succ, feedAll_cons, hf, Option.bind_some]
      exact ih { f with z := f.z + 1 } hl (by simp only; omega) (by simp only; omega)
    · simp [List.replicate_succ, feedAll_cons, feed, hl, he]

/-- A 1 after the leading bit releases what is held. -/
theorem feed_one (zmax : Nat) (f : Feed) (hl : f.lead = true) :
    feed zmax f true = some { f with has1 := true, z := 0, out := f.out ++ f.held } := by
  simp [feed, hl]

/-- The leading bit is consumed whatever its value. -/
theorem feed_lead (zmax : Nat) (f : Feed) (x : Bool) (hl : f.lead = false) :
    feed zmax f x = some { f with lead := true } := by
  simp [feed, hl]

end Sys2Proof.Machine
end

