-- ==== Sys2Proof/Laws/Feed.lean ====
section
/-! SUPPORT. Runs of zeros, and what feeding a whole sequence of bits does to the decoder's local copies. -/

namespace Sys2Proof.Machine

/-- A run of zeros does not cross a 1. -/
theorem zeros_infix_split {n : Nat} {a b : List Bool} (h : List.replicate n false <:+: a ++ true :: b) :
    List.replicate n false <:+: a ∨ List.replicate n false <:+: b := by
  obtain ⟨u, v, e⟩ := h
  rw [List.append_assoc, List.append_eq_append_iff] at e
  rcases e with ⟨w, h1, h2⟩ | ⟨w, h1, h2⟩
  · rw [List.append_eq_append_iff] at h2
    rcases h2 with ⟨z, h3, h4⟩ | ⟨z, h3, h4⟩
    · left; rw [h1, h3]; exact ⟨u, z, by simp⟩
    · cases z with
      | nil => left; simp at h3; rw [h1, ← h3]; exact ⟨u, [], by simp⟩
      | cons y z =>
        simp at h4
        have : y ∈ List.replicate n false := by rw [h3]; simp
        rw [List.mem_replicate, h4.1] at this
        exact absurd this.2 (by simp)
  · cases w with
    | nil =>
      simp at h2
      cases n with
      | zero => left; exact ⟨[], a, by simp⟩
      | succ n => simp [List.replicate_succ] at h2
    | cons y w =>
      simp at h2
      right; exact ⟨w, v, by simp [h2.2]⟩

/-- When zeros alone are a long run. -/
theorem longRun_zeros {zmax n : Nat} : LongRun zmax (List.replicate n false) ↔ zmax < n := by
  constructor
  · intro h; have := h.length_le; simp at this; omega
  · intro h; refine ⟨List.replicate (n - (zmax + 1)) false, [], ?_⟩
    simp; omega

/-- A 1 cuts a sequence: a long run is on one side of it. -/
theorem longRun_append_one {zmax : Nat} {a b : List Bool} :
    LongRun zmax (a ++ true :: b) ↔ LongRun zmax a ∨ LongRun zmax b := by
  constructor
  · exact zeros_infix_split
  · rintro (h | h)
    · exact h.trans (List.infix_append' [] a _)
    · exact h.trans ⟨a ++ [true], [], by simp⟩

/-- The last 1 of a sequence, and the zeros after it, are determined by the sequence. -/
theorem zeros_true_unique {p q : List Bool} {k l : Nat}
    (h : p ++ true :: List.replicate k false = q ++ true :: List.replicate l false) :
    p = q ∧ k = l := by
  have := congrArg List.reverse h
  simp at this
  have key : ∀ (k l : Nat) (p q : List Bool),
      List.replicate k false ++ true :: p = List.replicate l false ++ true :: q →
      p = q ∧ k = l := by
    intro k
    induction k with
    | zero => intro l p q h; cases l with
      | zero => simpa using h
      | succ l => simp [List.replicate_succ] at h
    | succ k ih => intro l p q h; cases l with
      | zero => simp [List.replicate_succ] at h
      | succ l =>
        simp [List.replicate_succ] at h
        have := ih l p q h
        exact ⟨this.1, by omega⟩
  have := key _ _ _ _ this
  exact ⟨by simpa using this.1, this.2⟩

/-- A sequence without a 1 is its zeros. -/
theorem eq_zeros_of_forall {xs : List Bool} (h : ∀ y ∈ xs, y = false) :
    xs = List.replicate xs.length false := List.eq_replicate_iff.mpr ⟨rfl, h⟩

/-- A sequence has no 1, or a last one with zeros after it. -/
theorem zeros_or_one (xs : List Bool) :
    (∀ y ∈ xs, y = false) ∨ ∃ p k, xs = p ++ true :: List.replicate k false := by
  induction xs using List.reverseRecOn with
  | nil => left; simp
  | append_singleton xs x ih =>
    cases x with
    | true => right; exact ⟨xs, 0, by simp⟩
    | false =>
      rcases ih with h | ⟨p, k, rfl⟩
      · left; simpa using h
      · right; exact ⟨p, k+1, by simp [List.replicate_succ']⟩

/-- Bits without a long run, the held zeros included, are fed without overflow, and this is what they leave. -/
theorem feedAll_fit (zmax : Nat) (f : Feed) (xs : List Bool) (hl : f.lead = true)
    (hr : ¬ LongRun zmax (List.replicate f.z false ++ xs)) :
    ((∀ y ∈ xs, y = false) → feedAll zmax f xs = some { f with z := f.z + xs.length }) ∧
    (∀ p k, xs = p ++ true :: List.replicate k false →
      feedAll zmax f xs = some { f with has1 := true, z := k, out := f.out ++ f.held ++ p }) := by
  induction xs generalizing f with
  | nil => exact ⟨fun _ => by simp, fun p k h => by simp at h⟩
  | cons x xs ih =>
    cases x with
    | true =>
      refine ⟨fun h => by simp at h, fun p k h => ?_⟩
      have hr' : ¬ LongRun zmax (List.replicate 0 false ++ xs) := by
        rw [longRun_append_one] at hr; simp at hr ⊢; exact hr.2
      have := ih { f with has1 := true, z := 0, out := f.out ++ f.held } hl hr'
      rw [feedAll_cons, feed_one zmax f hl, Option.bind_some]
      cases p with
      | nil =>
        simp at h
        rw [this.1 (by rw [h]; intro y hy; exact List.eq_of_mem_replicate hy), h]
        simp
      | cons y p =>
        simp at h
        rw [this.2 p k h.2]
        simp [Feed.held, ← h.1]
    | false =>
      have hz : f.z ≠ zmax := by
        intro e; apply hr; refine ⟨[], xs, ?_⟩; rw [e]; simp [List.replicate_succ']
      have hf : feed zmax f false = some { f with z := f.z + 1 } := by simp [feed, hl, hz]
      have hr' : ¬ LongRun zmax (List.replicate (f.z+1) false ++ xs) := by
        rw [List.replicate_succ']; simpa using hr
      have := ih { f with z := f.z + 1 } hl hr'
      rw [feedAll_cons, hf, Option.bind_some]
      constructor
      · intro h
        rw [this.1 (fun y hy => h y (by simp [hy]))]
        simp; omega
      · intro p k h
        cases p with
        | nil => simp at h
        | cons y p =>
          simp at h
          rw [this.2 p k h.2]
          simp [Feed.held, ← h.1, List.replicate_succ']

/-- Bits with a long run, the held zeros included, overflow. -/
theorem feedAll_overflow (zmax : Nat) (f : Feed) (xs : List Bool) (hl : f.lead = true)
    (hz : f.z ≤ zmax) (hr : LongRun zmax (List.replicate f.z false ++ xs)) :
    feedAll zmax f xs = none := by
  induction xs generalizing f with
  | nil => rw [List.append_nil, longRun_zeros] at hr; omega
  | cons x xs ih =>
    cases x with
    | true =>
      rw [feedAll_cons, feed_one zmax f hl, Option.bind_some]
      rw [longRun_append_one, longRun_zeros] at hr
      rcases hr with hr | hr
      · omega
      · exact ih _ hl (by simp) (by simpa using hr)
    | false =>
      by_cases e : f.z = zmax
      · simp [feedAll_cons, feed, hl, e]
      · have hf : feed zmax f false = some { f with z := f.z + 1 } := by simp [feed, hl, e]
        rw [feedAll_cons, hf, Option.bind_some]
        refine ih _ hl (by simp only; omega) ?_
        simp only
        rw [List.replicate_succ']; simpa using hr

/-- The leading bit of a message is consumed. -/
theorem feedAll_lead (zmax : Nat) (f : Feed) (x : Bool) (xs : List Bool) (hl : f.lead = false) :
    feedAll zmax f (x :: xs) = feedAll zmax { f with lead := true } xs := by
  rw [feedAll_cons, feed_lead zmax f x hl, Option.bind_some]

/-- A symbol's bits, less the leading bit of the message where it is the first symbol. -/
theorem feedAll_startFeed (zmax : Nat) (s : State) (v : Value) :
    feedAll zmax (startFeed s) (expand v) = feedAll zmax { startFeed s with lead := true }
      (if s.dLead then expand v else (expand v).drop 1) := by
  cases h : s.dLead
  · simp only [Bool.false_eq_true, if_false]
    have : expand v = v.getLsbD 5 :: (expand v).drop 1 := rfl
    rw [this, feedAll_lead _ _ _ _ (by simp [startFeed, h])]
    simp
  · simp [startFeed, h]

end Sys2Proof.Machine
end

