-- ==== Sys2Proof/Laws/PerInstr.lean ====
section
/-! SUPPORT. What holds of every command as an encoding, one lemma per constructor of `Instr`. -/

namespace Sys2Proof.Laws.EncodeRow

/-- The command's word is selected by the row of its name in the opcode map (spec 30_encoding.md R53). -/
def Statement (i : Instr) : Prop := ∃ r ∈ opcodeMap, r.mnemonic = i.mnemonic ∧ encode i &&& r.mask = r.pattern

theorem nop : Statement .nop := ⟨_, .head _, rfl, rfl⟩

theorem csClear : Statement .csClear := ⟨_, .tail _ (.head _), rfl, rfl⟩

theorem csWrite (idx : Value) (sym : Symbol) : Statement (.csWrite idx sym) := by
  refine ⟨_, .tail _ (.tail _ (.head _)), rfl, ?_⟩
  simp only [encode]
  ext i hi
  interval_cases i <;> simp

theorem encStart : Statement .encStart := ⟨_, .tail _ (.tail _ (.tail _ (.head _))), rfl, rfl⟩

theorem encBit (b : Bool) : Statement (.encBit b) := by
  refine ⟨_, .tail _ (.tail _ (.tail _ (.tail _ (.head _)))), rfl, ?_⟩
  cases b <;> rfl

theorem encEnd : Statement .encEnd := ⟨⟨0x5, .ENC_END, .N, 0x50000000, 0xFFFFFFFF⟩, by decide, rfl, rfl⟩

theorem decStart : Statement .decStart := ⟨⟨0x6, .DEC_START, .N, 0x60000000, 0xFFFFFFFF⟩, by decide, rfl, rfl⟩

theorem decSym (sym : Symbol) : Statement (.decSym sym) := by
  refine ⟨⟨0x7, .DEC_SYM, .S, 0x70000000, 0xFFE00000⟩, by decide, rfl, ?_⟩
  simp only [encode]
  ext i hi
  interval_cases i <;> simp

theorem decEnd : Statement .decEnd := ⟨⟨0x8, .DEC_END, .N, 0x80000000, 0xFFFFFFFF⟩, by decide, rfl, rfl⟩

theorem errClear : Statement .errClear := ⟨⟨0x9, .ERR_CLEAR, .N, 0x90000000, 0xFFFFFFFF⟩, by decide, rfl, rfl⟩

end Sys2Proof.Laws.EncodeRow
end

