-- ==== Sys2Proof/Laws/Step.lean ====
section
/-! SUPPORT. What a step and each command can do, said once. -/

namespace Sys2Proof.Machine

@[simp] theorem nextInput_nil {s : State} (h : s.hostIn = []) : nextInput s = none := by
  simp [nextInput, h]

theorem nextInput_cons {s : State} {x : HostInput} {rest : List HostInput} (h : s.hostIn = x :: rest) :
    nextInput s = some (x, { s with hostIn := rest }) := by
  simp [nextInput, h]

theorem step_empty {s : State} (h : s.hostIn = []) : step s = .next s := by
  simp [step, nextInput, h, idle]

theorem step_illegal {s : State} {w : Word} {rest : List HostInput} {why : IllegalWord}
    (h : s.hostIn = .command w :: rest) (hd : decode w = .illegal why) :
    step s = .next (recordError .illegal { s with hostIn := rest }) := by
  simp [step, nextInput_cons h, hd, raiseIllegal, raise]

theorem step_reset {s : State} {rest : List HostInput} (h : s.hostIn = .reset :: rest) :
    step s = .next (assertReset { s with hostIn := rest }) := by
  simp [step, nextInput_cons h]

theorem step_read {s : State} {a : ReadAddr} {rest : List HostInput} (h : s.hostIn = .read a :: rest) :
    step s = .next (serveRead a { s with hostIn := rest }) := by
  simp [step, nextInput_cons h]

/-- The next state of each command by name. -/
def afterCommand : Instr → State → State
  | .nop, s => s
  | .csClear, s => if messageOpen s then recordError .sequence s else clearMask s
  | .csWrite idx sym, s => if messageOpen s then recordError .sequence s else writeEntry idx sym s
  | .encStart, s =>
    if s.eBusy then recordError .sequence s
    else if csValid s = false then recordError .invalidCharset s
    else push true { s with eBusy := true, eAcc := 0, eCnt := 0 }
  | .encBit b, s => if s.eBusy = false then recordError .sequence s else push b s
  | .encEnd, s =>
    if s.eBusy = false then recordError .sequence s
    else { padGroup (push true s) with eAcc := 0, eCnt := 0, eBusy := false }
  | .decStart, s =>
    if s.dState ≠ .idle then recordError .sequence s
    else if csValid s = false then recordError .invalidCharset s
    else { s with dState := .run, dLead := false, dHas1 := false, dZ := 0, decResult := .none }
  | .decSym c, s =>
    match s.dState with
    | .idle => recordError .sequence s
    | .fail => s
    | .run =>
      match lookup s.cs c with
      | none => s
      | some v =>
        match feedAll s.config.zmax (startFeed s) (expand v) with
        | some f => finishFeed f s
        | none => recordError .runOverflow { s with dState := .fail }
  | .decEnd, s =>
    match s.dState with
    | .idle => recordError .sequence s
    | .fail => closeDecoder .overflow s
    | .run =>
      if s.dHas1 then closeDecoder .ok s else recordError .malformedInput (closeDecoder .malformed s)
  | .errClear, s => acknowledge s

/-- Every command answers a next state, and this one. -/
theorem exec_eq (i : Instr) (s : State) : exec i s = .next (afterCommand i s) := by
  cases i with
  | nop => rfl
  | csClear => simp only [exec, execCsClear, afterCommand, raise]; split <;> rfl
  | csWrite idx sym => simp only [exec, execCsWrite, afterCommand, raise]; split <;> rfl
  | encStart => simp only [exec, execEncStart, afterCommand, raise]; split <;> [rfl; split <;> rfl]
  | encBit b => simp only [exec, execEncBit, afterCommand, raise]; split <;> rfl
  | encEnd => simp only [exec, execEncEnd, afterCommand, raise]; split <;> rfl
  | decStart => simp only [exec, execDecStart, afterCommand, raise]; split <;> [rfl; split <;> rfl]
  | decSym c =>
    simp only [exec, execDecSym, feedSymbol, afterCommand, raise]
    cases s.dState with
    | idle => rfl
    | fail => rfl
    | run =>
      cases lookup s.cs c with
      | none => rfl
      | some v => cases h : feedAll s.config.zmax (startFeed s) (expand v) <;> simp [h]
  | decEnd =>
    simp only [exec, execDecEnd, afterCommand, raise]
    cases s.dState with
    | idle => rfl
    | fail => rfl
    | run => cases s.dHas1 <;> rfl
  | errClear => rfl

/-- A command word that decodes takes the step of its command. -/
theorem step_command {s : State} {w : Word} {rest : List HostInput} {i : Instr}
    (h : s.hostIn = .command w :: rest) (hd : decode w = .cmd i) :
    step s = .next (afterCommand i { s with hostIn := rest }) := by
  simp [step, nextInput_cons h, hd, exec_eq]

end Sys2Proof.Machine
end

