-- ==== Sys2Proof/Tests/Slice0.lean ====
section
/-! SUPPORT. The model's own tests. Expected results are the spec's test vectors (95_test_vectors.md); each comment names
the vector. The second half holds, for every statement with hypotheses, a witness that meets them together. -/

namespace Sys2Proof.Tests

open Sys2Proof Sys2Proof.Machine Sys2Proof.Machine.Codec Sys2Proof.Machine.Assembler

/-! ### Helpers -/

/-- The test charset `TC[i] = 0x30 + i` (95_test_vectors.md). -/
def testCharset : Charset := Vector.ofFn fun i => BitVec.ofNat 21 (0x30 + i.val)

/-- `TC` loaded, both engines idle, no errors, `ZMAX = 6` (V-O). -/
def loaded : State := { State.reset with config := ⟨6⟩, cs := testCharset, csw := BitVec.allOnes 64 }

/-- The next state of an outcome. -/
def nextOf : Host.Outcome State Fault Refusal → Option State
  | .next s => some s
  | .fault _ => none
  | .refused _ => none

/-- STATUS after the step in which a word is presented. -/
def statusAfter (w : Nat) (s : State) : Option Word := (nextOf (step (s.withFetchWord 32 w))).map status

/-- The state after S6: a malformed message, its error recorded. -/
def afterS6 : State :=
  { loaded with errBits := 0b01000, lastErr := some .malformedInput, decResult := .malformed }

/-- An encode message open with the pending bits given. -/
def encoding (acc : BitVec 6) (cnt : Fin 6) : State := { loaded with eBusy := true, eAcc := acc, eCnt := cnt }

/-- A decode message open with the registers given. -/
def decoding (lead has1 : Bool) (z : Nat) : State :=
  { loaded with dState := .run, dLead := lead, dHas1 := has1, dZ := z }

/-- The decoder after an overflow. -/
def failed : State := { decoding true true 6 with dState := .fail }

/-! ### Decoding (V-W) -/

theorem test_decode_nop : decode 0x00000000 = .cmd .nop := by decide
theorem test_decode_cs_clear : decode 0x10000000 = .cmd .csClear := by decide
theorem test_decode_cs_write : decode 0x27E0006F = .cmd (.csWrite 63 0x6F) := by decide
theorem test_decode_cs_write_5 : decode 0x20A00035 = .cmd (.csWrite 5 0x35) := by decide
theorem test_decode_enc_start : decode 0x30000000 = .cmd .encStart := by decide
theorem test_decode_enc_bit_0 : decode 0x40000000 = .cmd (.encBit false) := by decide
theorem test_decode_enc_bit_1 : decode 0x40000001 = .cmd (.encBit true) := by decide
theorem test_decode_enc_end : decode 0x50000000 = .cmd .encEnd := by decide
theorem test_decode_dec_start : decode 0x60000000 = .cmd .decStart := by decide
theorem test_decode_dec_sym : decode 0x70000065 = .cmd (.decSym 0x65) := by decide
theorem test_decode_dec_sym_max : decode 0x701FFFFF = .cmd (.decSym 0x1FFFFF) := by decide
theorem test_decode_dec_end : decode 0x80000000 = .cmd .decEnd := by decide
theorem test_decode_err_clear : decode 0x90000000 = .cmd .errClear := by decide
theorem test_decode_illegal_field :
    [0x08000000, 0x2C000000, 0x30000001, 0x30000100, 0x40000002, 0x70200000, 0x80000001].all
      (fun w => decide (decode w = .illegal .reservedField)) = true := by decide
theorem test_decode_illegal_opcode :
    [0xA0000000, 0xF0000000, 0xFFFFFFFF].all (fun w => decide (decode w = .illegal .reservedOpcode)) = true := by
  decide
theorem test_encode_cs_write : encode (.csWrite 63 0x1FFFFF) = 0x27FFFFFF := by decide

/-! ### Well-formed source lines (R58, R59): an ill-formed one for each check, and the assembler's text -/

theorem test_refuses_index_64 : AsmLine.wellFormed (.csWrite 64 0) = false := by decide
theorem test_refuses_wide_symbol : AsmLine.wellFormed (.csWrite 0 (2 ^ 21)) = false := by decide
theorem test_refuses_bit_2 : AsmLine.wellFormed (.encBit 2) = false := by decide
theorem test_refuses_wide_dec_sym : AsmLine.wellFormed (.decSym (2 ^ 21)) = false := by decide
theorem test_refuses_bits : AsmLine.wellFormed (.encBits [0, 1, 2]) = false := by decide
theorem test_refuses_encode : AsmLine.wellFormed (.encode [2]) = false := by decide
theorem test_refuses_dec_syms : AsmLine.wellFormed (.decSyms [0x65, 2 ^ 21]) = false := by decide
theorem test_refuses_decode : AsmLine.wellFormed (.decode [2 ^ 21]) = false := by decide
theorem test_refuses_short_load : AsmLine.wellFormed (.csLoad (List.range 63)) = false := by decide
theorem test_refuses_wide_load :
    AsmLine.wellFormed (.csLoad (2 ^ 21 :: List.range 63)) = false := by decide
theorem test_accepts_largest :
    AsmLine.wellFormed (.csWrite 63 (2 ^ 21 - 1)) = true := by decide
theorem test_assemble_text :
    assembleText Char.toNat ["cs.write 63, 'o' ; last entry".toList, "encode 1 0".toList] =
      some [0x27E0006F, 0x30000000, 0x40000001, 0x40000000, 0x50000000] := by decide

/-- Log entry 5, the model's choice; a quoted quote has the code 0x27. -/
theorem test_quoted_needs_no_separator :
    assembleLine Char.toNat "dec.syms'a''b'".toList = assembleLine Char.toNat "dec.syms 'a' 'b'".toList ∧
    assembleLine Char.toNat "dec.sym'''".toList = some [0x70000027] := by decide

/-! ### One step of each command -/

theorem test_loaded_valid : csValid loaded = true := by decide +kernel

/-- V-C. -/
theorem test_nop : statusAfter 0x00000000 afterS6 = some 0x00240801 := by decide +kernel
/-- V-CS step 12, from no recorded error. -/
theorem test_cs_clear : statusAfter 0x10000000 loaded = some 0x00000000 := by decide +kernel
/-- P4: SEQUENCE with a message open, here from no recorded error. -/
theorem test_cs_clear_open : statusAfter 0x10000000 (encoding 1 1) = some 0x00030403 := by decide +kernel
/-- V-CS step 5: a duplicate of `CS[0]`. -/
theorem test_cs_write_duplicate : statusAfter 0x27E00030 loaded = some 0x00000000 := by decide +kernel
/-- V-X, the paragraph after the priority table. -/
theorem test_cs_write_open : statusAfter 0x20A00030 (encoding 1 1) = some 0x00030403 := by decide +kernel
/-- V-CS step 1. -/
theorem test_enc_start_invalid : statusAfter 0x30000000 State.reset = some 0x00020200 := by decide +kernel
/-- V-E2, first row. -/
theorem test_enc_start : statusAfter 0x30000000 loaded = some 0x00000003 ∧
    (nextOf (exec .encStart loaded)).map (fun t => (t.eAcc, t.eCnt)) = some (1, 1) := by decide +kernel
/-- V-E2, the row that emits (53, 0x65). -/
theorem test_enc_bit_emits : (nextOf (exec (.encBit true) (encoding 0b011010 5))).map
    (fun t => (t.eAcc, t.eCnt, t.eo)) = some (0, 0, [⟨53, 0x65⟩]) := by decide +kernel
/-- V-E2, fourth row. -/
theorem test_enc_bit_pends : (nextOf (exec (.encBit true) (encoding 0b000110 3))).map
    (fun t => (t.eAcc, t.eCnt, t.eo)) = some (0b001101, 4, []) := by decide +kernel
/-- V-E2, last row. -/
theorem test_enc_end_pads : (nextOf (exec .encEnd (encoding 0 1))).map
    (fun t => (t.eBusy, t.eAcc, t.eCnt, t.eo)) = some (false, 0, 0, [⟨16, 0x40⟩]) := by decide +kernel
/-- V-E2, second trace. -/
theorem test_enc_end_full : (nextOf (exec .encEnd (encoding 0b010000 5))).map
    (fun t => (t.eBusy, t.eo)) = some (false, [⟨33, 0x51⟩]) := by decide +kernel
/-- V-D2, first row. -/
theorem test_dec_start : statusAfter 0x60000000 loaded = some 0x00000005 := by decide +kernel
/-- V-D2, second row. -/
theorem test_dec_sym : (nextOf (exec (.decSym 0x65) (decoding false false 0))).map
    (fun t => (t.dLead, t.dHas1, t.dZ, t.dout)) = some (true, true, 0, [true, false, true, false]) := by
  decide +kernel
/-- V-O, the trace of `e00`. -/
theorem test_dec_sym_overflow : statusAfter 0x70000030 (decoding true true 6) = some 0x0005100D := by decide +kernel
/-- V-D2, last row. -/
theorem test_dec_end_ok : statusAfter 0x80000000 (decoding true true 10) = some 0x00100001 := by decide +kernel
/-- S6. -/
theorem test_dec_end_malformed : statusAfter 0x80000000 (decoding false false 0) = some 0x00240801 := by decide +kernel
/-- V-C. -/
theorem test_err_clear : statusAfter 0x90000000 afterS6 = some 0x00200001 := by decide +kernel
/-- V-X: ILLEGAL before SEQUENCE. -/
theorem test_illegal : statusAfter 0x40000002 loaded = some 0x00010101 := by decide +kernel
/-- V-R: reset abandons an open encode message. -/
theorem test_reset : (nextOf (step { encoding 0b011111 5 with hostIn := [.reset] })).map
    (fun t => (status t, t.eo, t.eCnt)) = some (0, [], 0) := by decide +kernel
/-- V-CS step 3: the mask's halves, here with all 64 written. -/
theorem test_read_mask : (nextOf (step { loaded with hostIn := [.read 2] })).map
    (fun t => t.readOut) = some [⟨2, 0xFFFFFFFF⟩] := by decide +kernel
/-- S5. -/
theorem test_codec_s5 :
    enc [true, false, true, false, true, false, true, false, true, false, true, false] testCharset =
      [0x65, 0x45, 0x40] ∧
    dec [0x65, 0x20, 0x45, 0x40] testCharset =
      some [true, false, true, false, true, false, true, false, true, false, true, false] := by decide +kernel
/-- V-D: an encoding of the empty sequence, and a buffer whose only 1 is its first bit. -/
theorem test_codec_short : dec [0x60] testCharset = some [] ∧ dec [0x50] testCharset = none := by decide +kernel

/-! ### Witnesses: the hypotheses of each statement, met together -/

theorem witness_encode_of_decode : decode 0x27E0006F = .cmd (.csWrite 63 0x6F) := by decide
theorem witness_decode_follows_opcode_map :
    ∃ r ∈ opcodeMap, (0x27E0006F : Word) &&& r.mask = r.pattern := by decide
theorem witness_illegal_word : ∃ s : State, s.hostIn = .command 0xA0000000 :: [] ∧
    decode 0xA0000000 = .illegal .reservedOpcode := ⟨{ loaded with hostIn := [.command 0xA0000000] }, rfl, by decide⟩
theorem witness_illegal_word_field : ∃ s : State, s.hostIn = .command 0x2C000000 :: [] ∧
    decode 0x2C000000 = .illegal .reservedField := ⟨{ loaded with hostIn := [.command 0x2C000000] }, rfl, by decide⟩
theorem witness_assembler_words_decode : assemble (.csWrite 63 (2 ^ 21 - 1)) = some [0x27FFFFFF] ∧
    assemble (.decSym (2 ^ 21 - 1)) = some [0x701FFFFF] ∧ assemble (.encBit 1) = some [0x40000001] ∧
    assemble (.csWrite 0 0) = some [0x20000000] := by decide
/-- The least operands refused (R58). -/
theorem witness_assembler_refuses : assemble (.csWrite 64 0) = none ∧ assemble (.csWrite 0 (2 ^ 21)) = none ∧
    assemble (.decSym (2 ^ 21)) = none ∧ assemble (.encBit 2) = none := by decide
theorem witness_pseudo_encode : assemble (.encBits [0, 1]) = some [0x40000000, 0x40000001] ∧
    assemble (.encBits []) = some [] ∧ [0, 1][1]? = some 1 := by decide
theorem witness_pseudo_decode : assemble (.decSyms [0x65, 0x45]) = some [0x70000065, 0x70000045] ∧
    [0x65, 0x45][1]? = some 0x45 := by decide
theorem witness_pseudo_load : (assemble (.csLoad (List.range 64))).isSome = true ∧
    (List.range 64)[0]? = some 0 ∧ (List.range 64)[63]? = some 63 := by decide
theorem witness_step_runs_decoded_command : ∃ s : State, s.hostIn = .command 0x40000001 :: [.read 0] ∧
    decode 0x40000001 = .cmd (.encBit true) :=
  ⟨{ loaded with hostIn := [.command 0x40000001, .read 0] }, rfl, by decide⟩
theorem witness_read_port : ∀ a : ReadAddr, ∃ s : State, s.hostIn = .read a :: [] :=
  fun a => ⟨{ loaded with hostIn := [.read a] }, rfl⟩
theorem witness_reset_input : ∃ s : State, s.hostIn = .reset :: [] ∧ s.eBusy = true :=
  ⟨{ encoding 0b011111 5 with hostIn := [.reset] }, rfl, rfl⟩
theorem witness_status_fields : State.reset.lastErr = none ∧ afterS6.lastErr = some .malformedInput ∧
    State.reset.decResult = .none ∧ afterS6.decResult = .malformed := ⟨rfl, rfl, rfl, rfl⟩
theorem witness_error_record : ∃ t, step { afterS6 with hostIn := [present .errClear] } = .next t := ⟨_, rfl⟩
theorem witness_encoder_registers_written : ∃ t, step { encoding 1 1 with hostIn := [present (.encBit true)] } = .next t ∧
    (t.eBusy, t.eAcc, t.eCnt) ≠ (true, (1 : BitVec 6), (1 : Fin 6)) := ⟨_, rfl, by decide⟩
theorem witness_decoder_registers_written : ∃ t, step { decoding true true 5 with hostIn := [present .decEnd] } = .next t ∧
    (t.dState, t.dLead, t.dHas1, t.dZ) ≠ (DecoderState.run, true, true, 5) ∧ t.decResult ≠ .none :=
  ⟨_, rfl, by decide, by decide⟩
theorem witness_cs_valid : csValid loaded = true ∧ csValid State.reset = false := by decide +kernel
theorem witness_valid_charset : validCharset testCharset.toList = true := by decide +kernel
theorem witness_charset_command_idle : loaded.eBusy = false ∧ loaded.dState = .idle := ⟨rfl, rfl⟩
theorem witness_cs_write_frame : (0 : Value) ≠ 63 ∧ (63 : Nat) ≠ (0 : Value).toNat := by decide
theorem witness_charset_fixed_encoding : (encoding 1 1).eBusy = true ∧
    ∃ t, { encoding 1 1 with hostIn := [present .csClear] }.hostIn.head? ≠ some .reset ∧
      step { encoding 1 1 with hostIn := [present .csClear] } = .next t := ⟨rfl, _, by decide, rfl⟩
theorem witness_charset_fixed_decoding : (decoding false false 0).dState ≠ .idle ∧ failed.dState ≠ .idle := by decide
theorem witness_charset_writers : ∃ t, step { loaded with hostIn := [present (.csWrite 0 0x41)] } = .next t ∧
    present (.csWrite 0 0x41) ≠ .reset ∧ t.cs ≠ loaded.cs :=
  ⟨_, rfl, by decide, fun h => absurd (congrArg (fun d : Charset => d[0]) h) (by decide +kernel)⟩
theorem witness_mask_writers : ∃ t, step { loaded with hostIn := [present .csClear] } = .next t ∧
    present .csClear ≠ .reset ∧ t.csw ≠ loaded.csw := ⟨_, rfl, by decide, by decide⟩
theorem witness_boot : ∃ (s : State) (ss : List Nat), AsmLine.wellFormed (.csLoad ss) = true ∧ ss.Nodup ∧
    s.eBusy = false ∧ s.dState = .idle ∧ s.hostIn = (expansion (.csLoad ss)).map present ++ [.read 0] :=
  ⟨{ State.reset with hostIn := (expansion (.csLoad (List.range 64))).map present ++ [.read 0] }, List.range 64,
    by decide, List.nodup_range, rfl, rfl, rfl⟩
theorem witness_enc_start_opens : loaded.eBusy = false ∧ csValid loaded = true := ⟨rfl, test_loaded_valid⟩
theorem witness_enc_start_sequence : (encoding 1 1).eBusy = true := rfl
theorem witness_enc_start_invalid : State.reset.eBusy = false ∧ csValid State.reset = false := by decide +kernel
theorem witness_enc_bit_pends : (encoding 0b001010 4).eBusy = true ∧ (encoding 0b001010 4).eCnt.val + 1 < 6 := by
  decide
theorem witness_enc_bit_emits : (encoding 0b011010 5).eBusy = true ∧ (encoding 0b011010 5).eCnt.val = 5 := by decide
theorem witness_push_is_exact : (EncoderInv (encoding 0b011111 5) ∧ (encoding 0b011111 5).eBusy = true) ∧
    (EncoderInv (encoding 0b001111 4) ∧ (encoding 0b001111 4).eBusy = true) ∧
    EncoderInv (encoding 0 0) ∧ (encoding 0 0).eBusy = true := by decide
theorem witness_enc_end : (encoding 0 0).eBusy = true ∧ (encoding 0b010000 5).eBusy = true := ⟨rfl, rfl⟩
theorem witness_encoder_idle : loaded.eBusy = false := rfl

/-- Inputs that keep an encode message open: two bits, a read, an illegal word, a charset command. -/
def encodeMiddle : List HostInput :=
  [present (.encBit true), .read 0, .command 0x40000002, present .csClear, present (.encBit false)]

theorem witness_encoder_message : ∃ s : State, s.eBusy = false ∧ csValid s = true ∧
    (∀ x ∈ encodeMiddle, x.StaysInEncode) ∧
    s.hostIn = present .encStart :: (encodeMiddle ++ present .encEnd :: []) ∧ fedBits encodeMiddle = [true, false] ∧
    encodeMiddle = encodeMiddle.take 1 ++ encodeMiddle.drop 1 :=
  ⟨{ loaded with hostIn := present .encStart :: (encodeMiddle ++ present .encEnd :: []) }, rfl, test_loaded_valid,
    by decide, rfl, by decide, by decide⟩
theorem witness_encoder_empty_message : ∃ s : State, s.eBusy = false ∧ csValid s = true ∧
    (∀ x ∈ ([] : List HostInput), x.StaysInEncode) ∧ s.hostIn = present .encStart :: ([] ++ present .encEnd :: []) :=
  ⟨{ loaded with hostIn := [present .encStart, present .encEnd] }, rfl, test_loaded_valid, by simp, rfl⟩
theorem witness_encoder_progress : ∃ s : State, s.eBusy = false ∧ csValid s = true ∧
    (∀ x ∈ encodeMiddle, x.StaysInEncode) ∧ s.hostIn = present .encStart :: (encodeMiddle ++ [.read 0]) :=
  ⟨{ loaded with hostIn := present .encStart :: (encodeMiddle ++ [.read 0]) }, rfl, test_loaded_valid, by decide, rfl⟩
theorem witness_small_value : (0 : Value).toNat < 32 ∧ (31 : Value).toNat < 32 := by decide
theorem witness_dec_start_opens : loaded.dState = .idle ∧ csValid loaded = true := ⟨rfl, test_loaded_valid⟩
theorem witness_dec_start_errors : (decoding false false 0).dState ≠ .idle ∧ State.reset.dState = .idle ∧
    csValid State.reset = false := by decide +kernel
theorem witness_dec_sym_unknown : (decoding true true 0).dState = .run ∧
    ∀ v : Value, symbolOf (decoding true true 0).cs v ≠ 0x20 := ⟨rfl, by decide +kernel⟩
theorem witness_dec_sym_ignored : failed.dState = .fail ∧ loaded.dState = .idle := ⟨rfl, rfl⟩

/-- Six zeros with none held: exactly `ZMAX` are held after. -/
theorem witness_dec_sym_feeds_zeros : ∃ own : List Bool, (decoding true true 0).dState = .run ∧
    6 ≤ (decoding true true 0).config.zmax ∧ lookup (decoding true true 0).cs 0x30 = some 0 ∧
    own = (if (decoding true true 0).dLead then expand 0 else (expand 0).drop 1) ∧
    (decoding true true 0).dZ + (own.takeWhile (· == false)).length ≤ (decoding true true 0).config.zmax ∧
    ∀ y ∈ own, y = false := ⟨_, rfl, by decide, by decide +kernel, rfl, by decide, by decide⟩
/-- The first symbol of a message, with a 1 and three zeros after it. -/
theorem witness_dec_sym_feeds_one : ∃ own : List Bool, (decoding false false 0).dState = .run ∧
    6 ≤ (decoding false false 0).config.zmax ∧ lookup (decoding false false 0).cs 0x58 = some 40 ∧
    own = (if (decoding false false 0).dLead then expand 40 else (expand 40).drop 1) ∧
    (decoding false false 0).dZ + (own.takeWhile (· == false)).length ≤ (decoding false false 0).config.zmax ∧
    own = [false] ++ true :: List.replicate 3 false := ⟨_, rfl, by decide, by decide +kernel, rfl, by decide, by decide⟩
/-- P5: symbol 0x31 with six zeros held. -/
theorem witness_dec_sym_overflows : ∃ own : List Bool, (decoding true true 6).dState = .run ∧
    (decoding true true 6).dZ ≤ (decoding true true 6).config.zmax ∧ lookup (decoding true true 6).cs 0x31 = some 1 ∧
    own = (if (decoding true true 6).dLead then expand 1 else (expand 1).drop 1) ∧
    (decoding true true 6).config.zmax < (decoding true true 6).dZ + (own.takeWhile (· == false)).length :=
  ⟨_, rfl, by decide, by decide +kernel, rfl, by decide⟩
theorem witness_dec_end_reports : ((decoding true true 6).dState = .run ∧ (decoding true true 6).dHas1 = true) ∧
    ((decoding true false 5).dState = .run ∧ (decoding true false 5).dHas1 = false) ∧
    failed.dState = .fail ∧ loaded.dState = .idle := by decide

/-- Inputs that keep a decode message open: a symbol, an unknown one, a read, a NOP, a second symbol. -/
def decodeMiddle : List HostInput :=
  [present (.decSym 0x65), present (.decSym 0x20), .read 0, present .nop, present (.decSym 0x50)]

/-- The state in which a decode message of the inputs given is presented. -/
def beforeDecode (mid : List HostInput) : State :=
  { loaded with hostIn := present .decStart :: (mid ++ present .decEnd :: []) }

theorem witness_decoder_progress : ∃ B : List Bool, (beforeDecode decodeMiddle).config.Legal ∧
    (beforeDecode decodeMiddle).dState = .idle ∧ csValid (beforeDecode decodeMiddle) = true ∧
    (∀ x ∈ decodeMiddle, x.StaysInDecode) ∧
    (beforeDecode decodeMiddle).hostIn = present .decStart :: (decodeMiddle ++ [present .decEnd]) ∧
    B = buf (fedSymbols decodeMiddle) (beforeDecode decodeMiddle).cs ∧
    ¬ LongRun (beforeDecode decodeMiddle).config.zmax (B.drop 1) ∧
    B.drop 1 = [true, false, true, false, true] ++ true :: List.replicate 5 false :=
  ⟨_, by decide, rfl, test_loaded_valid, by decide, rfl, rfl, by decide +kernel, by decide +kernel⟩
theorem witness_decoder_message_ok : ¬ LongRun 6 ((buf (fedSymbols decodeMiddle) testCharset).drop 1) ∧
    dec (fedSymbols decodeMiddle) testCharset = some [true, false, true, false, true] := by decide +kernel
/-- A message without a 1 at an index ≥ 1 (V-D). -/
theorem witness_decoder_message_malformed : ∃ B : List Bool, (beforeDecode [present (.decSym 0x50)]).config.Legal ∧
    (∀ x ∈ [present (.decSym 0x50)], x.StaysInDecode) ∧
    B = buf (fedSymbols [present (.decSym 0x50)]) (beforeDecode [present (.decSym 0x50)]).cs ∧
    ¬ LongRun (beforeDecode [present (.decSym 0x50)]).config.zmax (B.drop 1) ∧ (∀ y ∈ B.drop 1, y = false) ∧
    dec (fedSymbols [present (.decSym 0x50)]) testCharset = none :=
  ⟨_, by decide, by decide, rfl, by decide +kernel, by decide +kernel, by decide +kernel⟩

/-- `e00` (V-O). -/
def overflowMiddle : List HostInput := [present (.decSym 0x65), present (.decSym 0x30), present (.decSym 0x30)]

theorem witness_decoder_message_overflow : ∃ B p q : List Bool, (beforeDecode overflowMiddle).config.Legal ∧
    (beforeDecode overflowMiddle).dState = .idle ∧ csValid (beforeDecode overflowMiddle) = true ∧
    (∀ x ∈ overflowMiddle, x.StaysInDecode) ∧
    (beforeDecode overflowMiddle).hostIn = present .decStart :: (overflowMiddle ++ present .decEnd :: []) ∧
    B = buf (fedSymbols overflowMiddle) (beforeDecode overflowMiddle).cs ∧
    B.drop 1 = p ++ List.replicate ((beforeDecode overflowMiddle).config.zmax + 1) false ++ q ∧
    ¬ LongRun (beforeDecode overflowMiddle).config.zmax p ∧ ∀ y ∈ p.getLast?, y = true :=
  ⟨_, [true, false, true, false, true], List.replicate 5 false, by decide, rfl, test_loaded_valid, by decide, rfl, rfl,
    by decide +kernel, by decide, by decide⟩
/-- Seven symbols of zeros (V-O): the run starts the buffer, with nothing before it. -/
theorem witness_decoder_message_overflow_at_start : ∃ B q : List Bool,
    B = buf (List.replicate 7 0x30) testCharset ∧ B.drop 1 = [] ++ List.replicate 7 false ++ q ∧
    ¬ LongRun 6 [] ∧ ∀ y ∈ ([] : List Bool).getLast?, y = true :=
  ⟨_, List.replicate 34 false, rfl, by decide +kernel, by decide, by decide⟩
/-- `e0` (V-O): a run of exactly `ZMAX` zeros is no long run. -/
theorem witness_decoder_message_run_of_zmax : ∃ B : List Bool,
    B = buf (fedSymbols [present (.decSym 0x65), present (.decSym 0x30)]) testCharset ∧
    B.drop 1 = [true, false, true, false] ++ true :: List.replicate 6 false ∧ ¬ LongRun 6 (B.drop 1) ∧
    dec (fedSymbols [present (.decSym 0x65), present (.decSym 0x30)]) testCharset = some [true, false, true, false] :=
  ⟨_, rfl, by decide +kernel, by decide +kernel, by decide +kernel⟩
/-- A run of exactly `ZMAX + 1` zeros, with a 1 before and after it: symbols 0x65, 0x30, 0x40. -/
theorem witness_decoder_message_run_of_zmax_and_one : ∃ B p q : List Bool,
    B = buf (fedSymbols [present (.decSym 0x65), present (.decSym 0x30), present (.decSym 0x40)]) testCharset ∧
    B.drop 1 = p ++ List.replicate (6 + 1) false ++ q ∧ q.head? = some true ∧ ¬ LongRun 6 p ∧
    ∀ y ∈ p.getLast?, y = true :=
  ⟨_, [true, false, true, false, true], [true, false, false, false, false], rfl, by decide +kernel, by decide, by decide,
    by decide⟩
theorem witness_dec_meaning :
    (buf [0x51] testCharset).drop 1 = List.replicate 4 false ++ true :: List.replicate 0 false := by decide +kernel
theorem witness_block_round_trip : ∃ (s : State) (b : List Bool), s.config.Legal ∧ s.eBusy = false ∧ s.dState = .idle ∧
    csValid s = true ∧ ¬ LongRun s.config.zmax b ∧
    s.hostIn = (Instr.encStart :: b.map Instr.encBit ++ [Instr.encEnd]).map present ++
      ((Instr.decStart :: (enc b s.cs).map Instr.decSym ++ [Instr.decEnd]).map present ++ []) :=
  ⟨{ loaded with hostIn := (Instr.encStart :: (List.replicate 6 false).map Instr.encBit ++ [Instr.encEnd]).map present ++
      ((Instr.decStart :: (enc (List.replicate 6 false) testCharset).map Instr.decSym ++ [Instr.decEnd]).map present ++ []) },
    List.replicate 6 false, by decide, rfl, rfl, test_loaded_valid, by decide, rfl⟩
theorem witness_unknown_symbol : ∀ v : Value, symbolOf testCharset v ≠ 0x20 := by decide +kernel
theorem witness_unknown_symbol_open : (decoding false false 0).cs = testCharset ∧
    (decoding false false 0).dState ≠ .idle := ⟨rfl, by decide⟩

/-- `TC` with entries 0 and 1 exchanged (S8). -/
def swappedCharset : Charset := withEntry (withEntry testCharset 0 0x31) 1 0x30

theorem witness_charset_dependence : validCharset testCharset.toList = true ∧
    validCharset swappedCharset.toList = true ∧ enc [] testCharset = enc [] swappedCharset ∧
    enc (List.replicate 16 false) testCharset ≠ enc (List.replicate 16 false) swappedCharset := by decide +kernel
theorem witness_empty_cases : loaded.dState = .idle ∧ csValid loaded = true := ⟨rfl, test_loaded_valid⟩
theorem witness_expand_inverse : (List.replicate 6 true).length = 6 := by decide
theorem witness_idempotent : ∃ t, exec (.csWrite 63 0x41) loaded = .next t := ⟨_, rfl⟩
theorem witness_encoder_frame : ∃ t, exec (.encBit true) (encoding 0b011010 5) = .next t := ⟨_, rfl⟩
theorem witness_decoder_frame : ∃ t, exec (.decSym 0x65) (decoding false false 0) = .next t ∧
    t.dout = [true, false, true, false] := ⟨_, rfl, by decide +kernel⟩
/-- The decoder and the error record differ, the charset and the encoder agree. -/
theorem witness_encoder_independent : ∃ s s' t t' : State, s.cs = s'.cs ∧ s.csw = s'.csw ∧ s.eBusy = s'.eBusy ∧
    s.eAcc = s'.eAcc ∧ s.eCnt = s'.eCnt ∧ s.dState ≠ s'.dState ∧ s.errBits ≠ s'.errBits ∧
    exec .encEnd s = .next t ∧ exec .encEnd s' = .next t' :=
  ⟨encoding 1 1, { encoding 1 1 with errBits := 1, dState := .run }, _, _, rfl, rfl, rfl, rfl, rfl, by decide, by decide,
    rfl, rfl⟩
/-- The encoder and the stream differ, the charset and the decoder agree. -/
theorem witness_decoder_independent : ∃ s s' t t' : State, s.config = s'.config ∧ s.cs = s'.cs ∧ s.csw = s'.csw ∧
    s.dState = s'.dState ∧ s.dLead = s'.dLead ∧ s.dHas1 = s'.dHas1 ∧ s.dZ = s'.dZ ∧ s.decResult = s'.decResult ∧
    s.eBusy ≠ s'.eBusy ∧ s.dout ≠ s'.dout ∧ exec .decEnd s = .next t ∧ exec .decEnd s' = .next t' :=
  ⟨decoding true true 6, { decoding true true 6 with eBusy := true, dout := [true] }, _, _, rfl, rfl, rfl, rfl, rfl, rfl,
    rfl, rfl, by decide, by decide, rfl, rfl⟩
theorem witness_streams : ∃ t, step { encoding 0b011010 5 with hostIn := [present (.encBit true)] } = .next t ∧
    t.eo ≠ [] := ⟨_, rfl, by decide +kernel⟩
/-- A reachable state with a message open meets the invariant, and takes a step. -/
theorem witness_invariant : Inv { encoding 0b011010 5 with hostIn := [present (.encBit true)] } ∧
    ∃ t, step { encoding 0b011010 5 with hostIn := [present (.encBit true)] } = .next t :=
  ⟨by decide +kernel, _, rfl⟩
theorem witness_invariant_decoding : Inv { decoding true true 6 with hostIn := [present (.decSym 0x6F)] } := by
  decide +kernel

end Sys2Proof.Tests
end

section
/-! SUPPORT. The commands of an open encode message, and the numbers they shift in and emit. -/

namespace Sys2Proof.Machine

/-- ENC_BIT with a message open is the push (41_encoder.md R78). -/
theorem exec_encBit_of_open (b : Bool) {s : State} (hopen : s.eBusy = true) :
    exec (.encBit b) s = .next (push b s) := by
  simp [exec_eq, afterCommand, hopen]

/-- The value ENC_END emits (R79): the pending bits, the trailing sentinel, and zeros up to six bits. -/
def endValue (s : State) : Value := ((s.eAcc <<< 1) ||| bitOperand true) <<< (5 - s.eCnt.val)

/-- ENC_END with a message open closes it and emits one item (R79): the sentinel completes the group when five bits were
pending, and otherwise the padding does. -/
theorem exec_encEnd_of_open {s : State} (hopen : s.eBusy = true) :
    exec .encEnd s = .next { s with
      eBusy := false, eAcc := 0, eCnt := 0, eo := s.eo ++ [⟨endValue s, symbolOf s.cs (endValue s)⟩] } := by
  by_cases h : s.eCnt.val + 1 < 6
  · have hzeros : 6 - (s.eCnt.val + 1) = 5 - s.eCnt.val := by omega
    have hpending : (⟨s.eCnt.val + 1, h⟩ : Fin 6) ≠ 0 := Fin.ne_of_val_ne (Nat.succ_ne_zero _)
    simp [exec_eq, afterCommand, hopen, push_pending true s h, padGroup, hpending, emitE, hzeros, endValue]
  · have h5 : s.eCnt.val = 5 := by omega
    simp [exec_eq, afterCommand, hopen, push_complete true s h5, padGroup, endValue, h5]

/-- The padding shifts no bit out at the top. -/
theorem endValue_toNat {s : State} (hacc : s.eAcc.toNat < 2 ^ s.eCnt.val) :
    (endValue s).toNat = (2 * s.eAcc.toNat + 1) * 2 ^ (5 - s.eCnt.val) := by
  obtain ⟨hval, hlt⟩ := shiftIn_toNat s.eAcc s.eCnt.val true s.eCnt.isLt hacc
  have hwidth : s.eCnt.val + 1 + (5 - s.eCnt.val) = 6 := by omega
  have hfits : (2 * s.eAcc.toNat + 1) * 2 ^ (5 - s.eCnt.val) < 2 ^ 6 := by
    calc (2 * s.eAcc.toNat + 1) * 2 ^ (5 - s.eCnt.val)
        < 2 ^ (s.eCnt.val + 1) * 2 ^ (5 - s.eCnt.val) := Nat.mul_lt_mul_of_pos_right hlt (by positivity)
      _ = 2 ^ 6 := by rw [← Nat.pow_add, hwidth]
  rw [endValue, BitVec.toNat_shiftLeft, hval, Bool.toNat_true, Nat.shiftLeft_eq, Nat.mod_eq_of_lt hfits]

/-- Settles O27: the push by the number of bits pending, its accumulator by `shiftIn_toNat`, and the last item by
`endValue_toNat`. -/
theorem pushIsExact : Obligations.PushIsExact := by
  rintro s ⟨hacc, -⟩ hopen
  refine ⟨fun b => ⟨push b s, exec_encBit_of_open b hopen, fun hpending => ?_, fun hfull => ?_⟩, ?_⟩
  · obtain ⟨hval, hlt⟩ := shiftIn_toNat s.eAcc s.eCnt.val b s.eCnt.isLt hacc
    rw [push_pending b s (by omega)]
    exact ⟨hval, hval.trans_lt hlt, rfl, rfl⟩
  · obtain ⟨hval, -⟩ := shiftIn_toNat s.eAcc s.eCnt.val b s.eCnt.isLt hacc
    rw [push_complete b s hfull]
    exact ⟨rfl, rfl, _, hval, rfl⟩
  · exact ⟨_, endValue s, exec_encEnd_of_open hopen, endValue_toNat hacc, rfl⟩

end Sys2Proof.Machine
end

section
/-! SUPPORT. The step by the input it takes, and everything an input can do to the block. -/

namespace Sys2Proof.Machine

/-- The next state of an input by name, once it is taken from the queue (10_state.md R35). -/
def afterInput : HostInput → State → State
  | .command w, s =>
    match decode w with
    | .cmd i => afterCommand i s
    | .illegal _ => recordError .illegal s
  | .read a, s => serveRead a s
  | .reset, s => assertReset s

/-- A step with an input presented takes the oldest one, and this is the next state. -/
theorem step_input {s : State} {x : HostInput} {rest : List HostInput} (h : s.hostIn = x :: rest) :
    step s = .next (afterInput x { s with hostIn := rest }) := by
  cases x with
  | command w =>
    cases hd : decode w with
    | cmd i => simp only [step_command h hd, afterInput, hd]
    | illegal why => simp only [step_illegal h hd, afterInput, hd]
  | read a => exact step_read h
  | reset => exact step_reset h

theorem afterInput_of_instr {x : HostInput} {i : Instr} (h : x.instr = some i) (s : State) :
    afterInput x s = afterCommand i s := by
  cases x with
  | command w => cases hd : decode w <;> simp_all [HostInput.instr, afterInput]
  | read a => simp [HostInput.instr] at h
  | reset => simp [HostInput.instr] at h

/-- Everything an input can do to the block, with the condition under which a command has the effect. An error of the
kind that leaves the rest of the block alone is `recorded`, whatever raised it; `unchanged` is a NOP, and a symbol that
feeds nothing. -/
inductive Effect (x : HostInput) (s : State) : State → Prop
  | unchanged : Effect x s s
  | recorded (e : ErrorCause) : Effect x s (recordError e s)
  | answered (a : ReadAddr) : x = .read a → Effect x s (serveRead a s)
  | reset : x = .reset → Effect x s (assertReset s)
  | acknowledged : x.instr = some .errClear → Effect x s (acknowledge s)
  | maskCleared : x.instr = some .csClear → messageOpen s = false → Effect x s (clearMask s)
  | entryWritten (idx : Value) (sym : Symbol) :
      x.instr = some (.csWrite idx sym) → messageOpen s = false → Effect x s (writeEntry idx sym s)
  | encodeOpened : x.instr = some .encStart → s.eBusy = false → csValid s = true →
      Effect x s { s with eBusy := true, eAcc := 1, eCnt := 1 }
  | pushed (b : Bool) : x.instr = some (.encBit b) → s.eBusy = true → Effect x s (push b s)
  | encodeClosed : x.instr = some .encEnd → s.eBusy = true →
      Effect x s { s with
        eBusy := false, eAcc := 0, eCnt := 0, eo := s.eo ++ [⟨endValue s, symbolOf s.cs (endValue s)⟩] }
  | decodeOpened : x.instr = some .decStart → s.dState = .idle → csValid s = true →
      Effect x s { s with dState := .run, dLead := false, dHas1 := false, dZ := 0, decResult := .none }
  | fed (c : Symbol) (v : Value) (f : Feed) : x.instr = some (.decSym c) → s.dState = .run →
      lookup s.cs c = some v → feedAll s.config.zmax (startFeed s) (expand v) = some f → Effect x s (finishFeed f s)
  | overflowed (c : Symbol) (v : Value) : x.instr = some (.decSym c) → s.dState = .run →
      lookup s.cs c = some v → feedAll s.config.zmax (startFeed s) (expand v) = none →
      Effect x s (recordError .runOverflow { s with dState := .fail })
  | decodeOk : x.instr = some .decEnd → s.dState = .run → s.dHas1 = true → Effect x s (closeDecoder .ok s)
  | decodeMalformed : x.instr = some .decEnd → s.dState = .run → s.dHas1 = false →
      Effect x s (recordError .malformedInput (closeDecoder .malformed s))
  | decodeOverflow : x.instr = some .decEnd → s.dState = .fail → Effect x s (closeDecoder .overflow s)

/-- The leading sentinel is the first pending bit of a message (41_encoder.md R77). -/
theorem push_leading_sentinel (s : State) :
    push true { s with eBusy := true, eAcc := 0, eCnt := 0 } = { s with eBusy := true, eAcc := 1, eCnt := 1 } := by
  simp [push, bitOperand]

theorem afterCommand_encStart_of_idle {s : State} (hidle : s.eBusy = false) (hvalid : csValid s = true) :
    afterCommand .encStart s = { s with eBusy := true, eAcc := 1, eCnt := 1 } := by
  simp only [afterCommand, hidle, hvalid, push_leading_sentinel, Bool.false_eq_true, Bool.true_eq_false, if_false]

/-- The encoder commands, by whether a message is open and the charset is valid (41_encoder.md R77 to R79). -/
theorem effect_encStart {x : HostInput} (h : x.instr = some .encStart) (s : State) :
    Effect x s (afterCommand .encStart s) := by
  cases hb : s.eBusy with
  | true => simpa [afterCommand, hb] using Effect.recorded .sequence
  | false =>
    cases hv : csValid s with
    | false => simpa [afterCommand, hb, hv] using Effect.recorded .invalidCharset
    | true => exact afterCommand_encStart_of_idle hb hv ▸ .encodeOpened h hb hv

theorem effect_encBit {x : HostInput} {b : Bool} (h : x.instr = some (.encBit b)) (s : State) :
    Effect x s (afterCommand (.encBit b) s) := by
  cases hb : s.eBusy with
  | false => simpa [afterCommand, hb] using Effect.recorded .sequence
  | true => simpa [afterCommand, hb] using Effect.pushed b h hb

theorem effect_encEnd {x : HostInput} (h : x.instr = some .encEnd) (s : State) :
    Effect x s (afterCommand .encEnd s) := by
  cases hb : s.eBusy with
  | false => simpa [afterCommand, hb] using Effect.recorded .sequence
  | true =>
    have hend := (exec_eq .encEnd s).symm.trans (exec_encEnd_of_open hb)
    exact Host.Outcome.next.inj hend ▸ .encodeClosed h hb

/-- The charset commands, by whether a message is open (40_charset.md R65, R66). -/
theorem effect_csClear {x : HostInput} (h : x.instr = some .csClear) (s : State) :
    Effect x s (afterCommand .csClear s) := by
  cases ho : messageOpen s with
  | true => simpa [afterCommand, ho] using Effect.recorded .sequence
  | false => simpa [afterCommand, ho] using Effect.maskCleared h ho

theorem effect_csWrite {x : HostInput} {idx : Value} {sym : Symbol} (h : x.instr = some (.csWrite idx sym))
    (s : State) : Effect x s (afterCommand (.csWrite idx sym) s) := by
  cases ho : messageOpen s with
  | true => simpa [afterCommand, ho] using Effect.recorded .sequence
  | false => simpa [afterCommand, ho] using Effect.entryWritten idx sym h ho

/-- The decoder commands, by the decoder's state (42_decoder.md R90 to R94). -/
theorem effect_decStart {x : HostInput} (h : x.instr = some .decStart) (s : State) :
    Effect x s (afterCommand .decStart s) := by
  by_cases hi : s.dState = .idle
  · cases hv : csValid s with
    | false => simpa [afterCommand, hi, hv] using Effect.recorded .invalidCharset
    | true => simpa [afterCommand, hi, hv] using Effect.decodeOpened h hi hv
  · simpa [afterCommand, hi] using Effect.recorded .sequence

theorem effect_decSym {x : HostInput} {c : Symbol} (h : x.instr = some (.decSym c)) (s : State) :
    Effect x s (afterCommand (.decSym c) s) := by
  cases hs : s.dState with
  | idle => simpa [afterCommand, hs] using Effect.recorded .sequence
  | fail => simpa [afterCommand, hs] using Effect.unchanged
  | run =>
    cases hl : lookup s.cs c with
    | none => simpa [afterCommand, hs, hl] using Effect.unchanged
    | some v =>
      cases hf : feedAll s.config.zmax (startFeed s) (expand v) with
      | none => simpa [afterCommand, hs, hl, hf] using Effect.overflowed c v h hs hl hf
      | some f => simpa [afterCommand, hs, hl, hf] using Effect.fed c v f h hs hl hf

theorem effect_decEnd {x : HostInput} (h : x.instr = some .decEnd) (s : State) :
    Effect x s (afterCommand .decEnd s) := by
  cases hs : s.dState with
  | idle => simpa [afterCommand, hs] using Effect.recorded .sequence
  | fail => simpa [afterCommand, hs] using Effect.decodeOverflow h hs
  | run =>
    cases h1 : s.dHas1 with
    | true => simpa [afterCommand, hs, h1] using Effect.decodeOk h hs h1
    | false => simpa [afterCommand, hs, h1] using Effect.decodeMalformed h hs h1

theorem effect_command {x : HostInput} {i : Instr} (h : x.instr = some i) (s : State) :
    Effect x s (afterCommand i s) := by
  cases i with
  | nop => exact .unchanged
  | csClear => exact effect_csClear h s
  | csWrite idx sym => exact effect_csWrite h s
  | encStart => exact effect_encStart h s
  | encBit b => exact effect_encBit h s
  | encEnd => exact effect_encEnd h s
  | decStart => exact effect_decStart h s
  | decSym c => exact effect_decSym h s
  | decEnd => exact effect_decEnd h s
  | errClear => exact .acknowledged h

theorem effect_afterInput (x : HostInput) (s : State) : Effect x s (afterInput x s) := by
  cases x with
  | command w =>
    cases hd : decode w with
    | cmd i =>
      have hi : (HostInput.command w).instr = some i := by simp [HostInput.instr, hd]
      exact afterInput_of_instr hi s ▸ effect_command hi s
    | illegal why => simpa [afterInput, hd] using Effect.recorded .illegal
  | read a => exact .answered a rfl
  | reset => exact .reset rfl

theorem step_input_effect {s t : State} {x : HostInput} {rest : List HostInput} (hq : s.hostIn = x :: rest)
    (h : step s = .next t) : Effect x { s with hostIn := rest } t := by
  rw [step_input hq] at h
  exact Host.Outcome.next.inj h ▸ effect_afterInput x _

/-- What every step does: nothing, or an effect of the oldest input on the block. -/
theorem step_effect {s t : State} (h : step s = .next t) :
    t = s ∨ ∃ x rest, s.hostIn = x :: rest ∧ Effect x { s with hostIn := rest } t := by
  cases hq : s.hostIn with
  | nil => exact .inl (by simpa [step_empty hq] using h.symm)
  | cons x rest => exact .inr ⟨x, rest, rfl, step_input_effect hq h⟩

end Sys2Proof.Machine
end

section
/-! SUPPORT. What an effect does to each part of the block: the error record, the charset, the two engines. -/

namespace Sys2Proof.Machine

section

variable {x : HostInput} {s t : State}

/-- The error record is left alone, records one error, or is cleared by ERR_CLEAR or reset (10_state.md R33). -/
theorem Effect.errorRecord (h : Effect x s t) :
    (t.errBits = s.errBits ∧ t.lastErr = s.lastErr) ∨
    (∃ e : ErrorCause, t.errBits = s.errBits ||| e.sticky ∧ t.lastErr = some e) ∨
    (t.errBits = 0 ∧ t.lastErr = none ∧ (x = .reset ∨ x.instr = some .errClear)) := by
  cases h with
  | recorded e => exact .inr (.inl ⟨e, rfl, rfl⟩)
  | overflowed => exact .inr (.inl ⟨.runOverflow, rfl, rfl⟩)
  | decodeMalformed => exact .inr (.inl ⟨.malformedInput, rfl, rfl⟩)
  | reset hx => exact .inr (.inr ⟨rfl, rfl, .inl hx⟩)
  | acknowledged hx => exact .inr (.inr ⟨rfl, rfl, .inr hx⟩)
  | _ => exact .inl (by simp)

/-- The table and its mask are left alone while a message is open, reset aside, and otherwise are written by the charset
commands only (10_state.md R21, R22, 20_memory.md R49). -/
theorem Effect.charset (h : Effect x s t) :
    (t.cs = s.cs ∧ t.csw = s.csw) ∨ (x = .reset ∧ t = assertReset s) ∨
    (messageOpen s = false ∧ t.eBusy = s.eBusy ∧ t.dState = s.dState ∧
      ((t.cs = s.cs ∧ x.instr = some .csClear) ∨ ∃ idx sym, x.instr = some (.csWrite idx sym))) := by
  cases h with
  | reset hx => exact .inr (.inl ⟨hx, rfl⟩)
  | maskCleared hx ho => exact .inr (.inr ⟨ho, rfl, rfl, .inl ⟨rfl, hx⟩⟩)
  | entryWritten idx sym hx ho => exact .inr (.inr ⟨ho, rfl, rfl, .inr ⟨idx, sym, hx⟩⟩)
  | _ => exact .inl (by simp)

/-- The encoder's registers are written by its commands and by reset (10_state.md R18). -/
theorem Effect.encoder (h : Effect x s t) :
    (t.eBusy = s.eBusy ∧ t.eAcc = s.eAcc ∧ t.eCnt = s.eCnt ∧ t.eo = s.eo) ∨
    x = .reset ∨ x.instr = some .encStart ∨ (∃ b, x.instr = some (.encBit b)) ∨ x.instr = some .encEnd := by
  cases h with
  | reset hx => exact .inr (.inl hx)
  | encodeOpened hx => exact .inr (.inr (.inl hx))
  | pushed b hx => exact .inr (.inr (.inr (.inl ⟨b, hx⟩)))
  | encodeClosed hx => exact .inr (.inr (.inr (.inr hx)))
  | _ => exact .inl (by simp)

/-- The decoder's registers are written by its commands and by reset (10_state.md R18). -/
theorem Effect.decoder (h : Effect x s t) :
    (t.dState = s.dState ∧ t.dLead = s.dLead ∧ t.dHas1 = s.dHas1 ∧ t.dZ = s.dZ ∧ t.dout = s.dout) ∨
    x = .reset ∨ x.instr = some .decStart ∨ (∃ c, x.instr = some (.decSym c)) ∨ x.instr = some .decEnd := by
  cases h with
  | reset hx => exact .inr (.inl hx)
  | decodeOpened hx => exact .inr (.inr (.inl hx))
  | fed c v f hx => exact .inr (.inr (.inr (.inl ⟨c, hx⟩)))
  | overflowed c v hx => exact .inr (.inr (.inr (.inl ⟨c, hx⟩)))
  | decodeOk hx => exact .inr (.inr (.inr (.inr hx)))
  | decodeMalformed hx => exact .inr (.inr (.inr (.inr hx)))
  | decodeOverflow hx => exact .inr (.inr (.inr (.inr hx)))
  | _ => exact .inl (by simp)

/-- `DEC_RESULT` is written by DEC_START, DEC_END and reset (10_state.md R33). -/
theorem Effect.decResult (h : Effect x s t) :
    t.decResult = s.decResult ∨ x = .reset ∨ x.instr = some .decStart ∨ x.instr = some .decEnd := by
  cases h with
  | reset hx => exact .inr (.inl hx)
  | decodeOpened hx => exact .inr (.inr (.inl hx))
  | decodeOk hx => exact .inr (.inr (.inr hx))
  | decodeMalformed hx => exact .inr (.inr (.inr hx))
  | decodeOverflow hx => exact .inr (.inr (.inr hx))
  | _ => exact .inl (by simp)

/-- A push emits one item at most, with the entry of its value (41_encoder.md R76). -/
theorem push_eo (b : Bool) (s : State) :
    (push b s).eo = s.eo ∨ ∃ v : Value, (push b s).eo = s.eo ++ [⟨v, symbolOf s.cs v⟩] := by
  by_cases h : s.eCnt.val + 1 < 6
  · rw [push_pending b s h]; exact .inl rfl
  · rw [push_complete b s (by omega)]; exact .inr ⟨_, rfl⟩

/-- EO grows by one item at most, at ENC_BIT and ENC_END (10_state.md R34). -/
theorem Effect.eo (h : Effect x s t) :
    t.eo = s.eo ∨ ∃ v : Value, t.eo = s.eo ++ [⟨v, symbolOf s.cs v⟩] ∧
      ((∃ b, x.instr = some (.encBit b)) ∨ x.instr = some .encEnd) := by
  cases h with
  | pushed b hx =>
    obtain hsame | ⟨v, hv⟩ := push_eo b s
    · exact .inl hsame
    · exact .inr ⟨v, hv, .inl ⟨b, hx⟩⟩
  | encodeClosed hx => exact .inr ⟨endValue s, rfl, .inr hx⟩
  | _ => exact .inl (by simp)

/-- DO grows at a DEC_SYM only (10_state.md R34). -/
theorem Effect.dout (h : Effect x s t) :
    t.dout = s.dout ∨ ∃ out : List Bool, t.dout = s.dout ++ out ∧ ∃ c, x.instr = some (.decSym c) := by
  cases h with
  | fed c v f hx => exact .inr ⟨f.out, rfl, c, hx⟩
  | _ => exact .inl (by simp)

/-- No effect writes the parameter `ZMAX` (00_scope.md R9). -/
theorem Effect.config (h : Effect x s t) : t.config = s.config := by
  cases h <;> simp

/-- The queue is written by taking the input only (10_state.md R35). -/
theorem Effect.hostIn (h : Effect x s t) : t.hostIn = s.hostIn := by
  cases h <;> simp

end

/-! ### The statements -/

/-- Settles O14: by the effect of the input on the error record. -/
theorem errorRecordDiscipline : Obligations.ErrorRecordDiscipline := by
  intro s t h
  obtain rfl | ⟨x, rest, hq, he⟩ := step_effect h
  · exact .inl ⟨rfl, rfl⟩
  · obtain hsame | hone | ⟨hbits, hlast, hx⟩ := he.errorRecord
    · exact .inl hsame
    · exact .inr (.inl hone)
    · exact .inr (.inr ⟨hbits, hlast, x, rest, hq, hx⟩)

/-- Settles O16: a register that differs afterwards is not in the frame of the input's effect. -/
theorem engineRegisterWriters : Obligations.EngineRegisterWriters := by
  intro s t h
  obtain rfl | ⟨x, rest, hq, he⟩ := step_effect h
  · exact ⟨fun hne => absurd rfl hne, fun hne => absurd rfl hne, fun hne => absurd rfl hne⟩
  refine ⟨fun hne => ⟨x, rest, hq, ?_⟩, fun hne => ⟨x, rest, hq, ?_⟩, fun hne => ⟨x, rest, hq, ?_⟩⟩
  · exact he.encoder.resolve_left fun ⟨h1, h2, h3, _⟩ => hne (by simp [h1, h2, h3])
  · exact he.decoder.resolve_left fun ⟨h1, h2, h3, h4, _⟩ => hne (by simp [h1, h2, h3, h4])
  · exact he.decResult.resolve_left hne

/-- Settles O22: by the effect of the input on the table and the mask. -/
theorem charsetWriters : Obligations.CharsetWriters := by
  intro s t x rest hq hx h
  obtain ⟨hcs, hcsw⟩ | ⟨hreset, -⟩ | ⟨-, -, -, hwriter⟩ := (step_input_effect hq h).charset
  · exact ⟨fun hne => absurd hcs hne, fun hne => absurd hcsw hne⟩
  · exact absurd hreset hx
  · obtain ⟨hcs, hclear⟩ | hwrite := hwriter
    · exact ⟨fun hne => absurd hcs hne, fun _ => .inl hclear⟩
    · exact ⟨fun _ => hwrite, fun _ => .inr hwrite⟩

/-- Settles O57: by the effect of the input on each stream. -/
theorem streamsAppendOnly : Obligations.StreamsAppendOnly := by
  intro s t h
  obtain rfl | ⟨x, rest, hq, he⟩ := step_effect h
  · exact ⟨.inl rfl, .inl rfl⟩
  constructor
  · obtain hsame | ⟨v, heo, hx⟩ := he.eo
    · exact .inl hsame
    · exact .inr ⟨v, x, rest, heo, hq, hx⟩
  · obtain hsame | ⟨out, hdo, hx⟩ := he.dout
    · exact .inl hsame
    · exact .inr ⟨out, x, rest, hdo, hq, hx⟩

/-- Settles O8: both sides answer the next state of the command. -/
theorem stepRunsDecodedCommand : Obligations.StepRunsDecodedCommand :=
  fun _ _ _ i hq hd => (step_command hq hd).trans (exec_eq i _).symm

/-- Settles O9: the word served is `readWord` of the address, and the other fields are those before the read. -/
theorem readPortReturns : Obligations.ReadPortReturns := by
  intro s a rest hq
  refine ⟨readWord s a, step_read hq, ?_, ?_, ?_, ?_⟩ <;> rintro rfl <;> rfl

end Sys2Proof.Machine
end

section
/-! SUPPORT. Every effect keeps the invariant, part by part. -/

namespace Sys2Proof.Machine

section

variable {x : HostInput} {s t : State}

/-! ### The error record -/

/-- Recording an error keeps the record consistent: its sticky bit is set, so `ERRBITS` is not 0. -/
theorem recordError_errorInv {e : ErrorCause} (hbits : t.errBits = s.errBits ||| e.sticky)
    (hlast : t.lastErr = some e) : ErrorInv t := by
  have hset : t.errBits &&& e.sticky = e.sticky := by
    rw [hbits]; ext i hi; simpa using Or.inr
  have hsticky : e.sticky ≠ 0 := by cases e <;> decide
  refine ⟨?_, ?_⟩
  · have hne : t.errBits ≠ 0 := fun h0 => hsticky (by rw [← hset, h0]; simp)
    simpa [hlast] using hne
  · simpa [hlast] using hset

theorem Effect.errorInv (h : Effect x s t) (hinv : ErrorInv s) : ErrorInv t := by
  obtain ⟨hbits, hlast⟩ | ⟨e, hbits, hlast⟩ | ⟨hbits, hlast, -⟩ := h.errorRecord
  · simpa only [ErrorInv, hbits, hlast] using hinv
  · exact recordError_errorInv hbits hlast
  · simp [ErrorInv, hbits, hlast]

/-! ### The charset -/

theorem csValid_congr (hcs : t.cs = s.cs) (hcsw : t.csw = s.csw) : csValid t = csValid s := by
  simp only [csValid, hcs, hcsw]

theorem messageOpen_congr (hb : t.eBusy = s.eBusy) (hd : t.dState = s.dState) : messageOpen t = messageOpen s := by
  simp only [messageOpen, hb, hd]

/-- A message is opened only with a valid charset (10_state.md R67). -/
theorem Effect.opens (h : Effect x s t) (ho : messageOpen t = true) : messageOpen s = true ∨ csValid s = true := by
  cases h with
  | encodeOpened _ _ hv => exact .inr hv
  | decodeOpened _ _ hv => exact .inr hv
  | reset => simp [messageOpen] at ho
  | _ => left; simp_all [messageOpen]

theorem Effect.charsetInv (h : Effect x s t) (hinv : CharsetInv s) : CharsetInv t := by
  intro ho
  obtain ⟨hcs, hcsw⟩ | ⟨-, rfl⟩ | ⟨hclosed, hb, hd, -⟩ := h.charset
  · rw [csValid_congr hcs hcsw]
    exact (h.opens ho).elim hinv id
  · simp [messageOpen] at ho
  · simp [messageOpen_congr hb hd, hclosed] at ho

/-! ### The encoder -/

/-- A push keeps the pending bits below `2 ^ E_CNT` (41_encoder.md R76). -/
theorem push_eAcc_lt (b : Bool) (hacc : s.eAcc.toNat < 2 ^ s.eCnt.val) :
    (push b s).eAcc.toNat < 2 ^ (push b s).eCnt.val := by
  by_cases h : s.eCnt.val + 1 < 6
  · obtain ⟨hval, hlt⟩ := shiftIn_toNat s.eAcc s.eCnt.val b s.eCnt.isLt hacc
    rw [push_pending b s h]
    exact hval.trans_lt hlt
  · rw [push_complete b s (by omega)]
    simp

theorem Effect.encoderInv (h : Effect x s t) (hinv : EncoderInv s) : EncoderInv t := by
  obtain ⟨hacc, hidle⟩ := hinv
  cases h with
  | reset => exact ⟨by simp, fun _ => ⟨rfl, rfl⟩⟩
  | encodeOpened => exact ⟨by simp, by simp⟩
  | pushed b _ hb => exact ⟨push_eAcc_lt b hacc, by simp [hb]⟩
  | encodeClosed => exact ⟨by simp, fun _ => ⟨rfl, rfl⟩⟩
  | _ => exact ⟨hacc, hidle⟩

/-! ### The decoder -/

/-- After a bit the leading bit is known, and the count of held zeros stays within `ZMAX` (42_decoder.md R91). -/
theorem feed_bounds {zmax : Nat} {f f' : Feed} {y : Bool} (h : feed zmax f y = some f') (hz : f.z ≤ zmax) :
    f'.lead = true ∧ f'.z ≤ zmax := by
  obtain ⟨-, hf⟩ | ⟨hl, -, hf⟩ | ⟨-, -, -, hf⟩ | ⟨hl, -, hne, hf⟩ := feed_cases zmax f y <;>
    rw [hf] at h <;> cases h
  · exact ⟨rfl, hz⟩
  · exact ⟨hl, Nat.zero_le _⟩
  · exact ⟨hl, Nat.lt_of_le_of_ne hz hne⟩

theorem feedAll_bounds {zmax : Nat} {f f' : Feed} {ys : List Bool} (h : feedAll zmax f ys = some f')
    (hz : f.z ≤ zmax) : (ys ≠ [] → f'.lead = true) ∧ f'.z ≤ zmax := by
  induction ys generalizing f with
  | nil => cases h; exact ⟨absurd rfl, hz⟩
  | cons y ys ih =>
    rw [feedAll_cons, Option.bind_eq_some_iff] at h
    obtain ⟨g, hg, hrest⟩ := h
    obtain ⟨hlead, hgz⟩ := feed_bounds hg hz
    obtain ⟨hl, hz'⟩ := ih hrest hgz
    refine ⟨fun _ => ?_, hz'⟩
    cases ys with
    | nil => cases hrest; exact hlead
    | cons => exact hl (List.cons_ne_nil _ _)

theorem Effect.decoderInv (h : Effect x s t) (hinv : DecoderInv s) : DecoderInv t := by
  obtain ⟨hidle, hlead, hz, hres⟩ := hinv
  cases h with
  | reset => simp [DecoderInv]
  | decodeOpened => simp [DecoderInv]
  | decodeOk => simp [DecoderInv]
  | decodeMalformed => simp [DecoderInv]
  | decodeOverflow => simp [DecoderInv]
  | fed c v f _ hrun _ hfeed =>
    obtain ⟨hl, hfz⟩ := feedAll_bounds hfeed hz
    have hl : f.lead = true := hl (List.cons_ne_nil _ _)
    exact ⟨by simp [hrun], by simp [hl], hfz, hres⟩
  | overflowed c v _ hrun => exact ⟨by simp, hlead, hz, fun _ => hres (by simp [hrun])⟩
  | _ => exact ⟨by simpa using hidle, by simpa using hlead, by simpa using hz, by simpa using hres⟩

/-! ### The invariant -/

theorem Effect.inv (h : Effect x s t) (hinv : Inv s) : Inv t := by
  obtain ⟨hlegal, hE, hD, hC, hR⟩ := hinv
  exact ⟨h.config.symm ▸ hlegal, h.encoderInv hE, h.decoderInv hD, h.charsetInv hC, h.errorInv hR⟩

end

/-- Settles O60: the invariant does not speak of the queue, and the effect of the input taken keeps each part of it. -/
theorem stepKeepsInv : Obligations.StepKeepsInv := by
  intro s t hinv h
  obtain rfl | ⟨x, rest, -, he⟩ := step_effect h
  · exact hinv
  · exact he.inv hinv

end Sys2Proof.Machine
end

section
/-! SUPPORT. The fields of STATUS and the meaning of `CS_VALID` (10_state.md R33, R23). -/

namespace Sys2Proof.Machine

open Codec

/-! ### STATUS -/

/-- The bits of nested fields of these widths; the widths of `status` are these, summed up. -/
theorem getLsbD_statusFields (r : BitVec 2) (l : BitVec 3) (e : BitVec 5) (f o b v : Bool) {k : Nat} (hk : k < 32) :
    (0#10 ++ r ++ 0#1 ++ l ++ 0#3 ++ e ++ 0#4 ++ BitVec.ofBool f ++ BitVec.ofBool o ++ BitVec.ofBool b
      ++ BitVec.ofBool v).getLsbD k =
    if k = 0 then v else if k = 1 then b else if k = 2 then o else if k = 3 then f else if k < 8 then false
    else if k < 13 then e.getLsbD (k - 8) else if k < 16 then false else if k < 19 then l.getLsbD (k - 16)
    else if k < 20 then false else if k < 22 then r.getLsbD (k - 20) else false := by
  repeat rw [BitVec.getLsbD_append]
  interval_cases k <;> simp

/-- STATUS bit by bit (10_state.md R33). -/
theorem status_getLsbD (s : State) {k : Nat} (hk : k < 32) : (status s).getLsbD k =
    if k = 0 then csValid s else if k = 1 then s.eBusy else if k = 2 then s.dState != .idle
    else if k = 3 then s.dState == .fail else if k < 8 then false
    else if k < 13 then s.errBits.getLsbD (k - 8) else if k < 16 then false
    else if k < 19 then (lastErrField s.lastErr).getLsbD (k - 16) else if k < 20 then false
    else if k < 22 then s.decResult.field.getLsbD (k - 20) else false :=
  getLsbD_statusFields s.decResult.field (lastErrField s.lastErr) s.errBits _ _ s.eBusy (csValid s) hk

/-- A field of STATUS is known by its bits. -/
theorem status_field_eq {s : State} {n m : Nat} {field : BitVec m}
    (h : ∀ i, i < m → (status s).getLsbD (n + i) = field.getLsbD i) : (status s).extractLsb' n m = field := by
  refine BitVec.eq_of_getLsbD_eq fun i hi => ?_
  rw [BitVec.getLsbD_extractLsb', h i hi]
  simp [hi]

theorem status_errBits (s : State) : (status s).extractLsb' 8 5 = s.errBits :=
  status_field_eq fun i hi => by rw [status_getLsbD s (by omega)]; grind

theorem status_lastErr (s : State) : (status s).extractLsb' 16 3 = lastErrField s.lastErr :=
  status_field_eq fun i hi => by rw [status_getLsbD s (by omega)]; grind

theorem status_decResult (s : State) : (status s).extractLsb' 20 2 = s.decResult.field :=
  status_field_eq fun i hi => by rw [status_getLsbD s (by omega)]; grind

/-- The reserved fields of more than one bit read 0. -/
theorem status_reserved (s : State) {n m : Nat} (h : n = 4 ∧ m = 4 ∨ n = 13 ∧ m = 3 ∨ n = 22 ∧ m = 10) :
    (status s).extractLsb' n m = 0 := by
  obtain ⟨rfl, rfl⟩ | ⟨rfl, rfl⟩ | ⟨rfl, rfl⟩ := h <;>
    exact status_field_eq fun i hi => by rw [status_getLsbD s (by omega)]; grind

/-- Settles O13: the single bits by `status_getLsbD`, the wider fields by name, and the code of each value. -/
theorem statusLayout : Obligations.StatusLayout := by
  intro s
  refine ⟨status_getLsbD s (by omega), status_getLsbD s (by omega), ?_, ?_, status_reserved s (by omega),
    status_errBits s, status_reserved s (by omega), ?_, ?_, ?_, ?_, ?_, ?_, status_getLsbD s (by omega),
    ?_, ?_, ?_, ?_, status_reserved s (by omega)⟩
  · rw [status_getLsbD s (by omega)]; cases s.dState <;> rfl
  · rw [status_getLsbD s (by omega)]; cases s.dState <;> rfl
  all_goals
    intro hvalue
    simp only [status_lastErr, status_decResult, hvalue]
    rfl

/-! ### CS_VALID -/

theorem csValid_iff (s : State) : csValid s = true ↔ s.csw = BitVec.allOnes 64 ∧ s.cs.toList.Nodup := by
  simp [csValid, pairwiseDistinct]

/-- The entries are pairwise different exactly when the values name them injectively (10_state.md R23). -/
theorem nodup_iff_symbolOf (C : Charset) :
    C.toList.Nodup ↔ ∀ i j : Value, i ≠ j → symbolOf C i ≠ symbolOf C j := by
  rw [List.nodup_iff_injective_getElem]
  constructor
  · intro h i j hne heq
    have hfin : (⟨i.toNat, by simpa using i.isLt⟩ : Fin C.toList.length) = ⟨j.toNat, by simpa using j.isLt⟩ :=
      h (by simpa [symbolOf] using heq)
    exact hne (BitVec.eq_of_toNat_eq (by simpa using hfin))
  · intro h i j heq
    have hi : i.val < 64 := by simpa using i.isLt
    have hj : j.val < 64 := by simpa using j.isLt
    by_contra hne
    refine h (BitVec.ofNat 6 i.val) (BitVec.ofNat 6 j.val) ?_ ?_
    · intro hv
      have := congrArg BitVec.toNat hv
      simp only [BitVec.toNat_ofNat, Nat.reducePow, Nat.mod_eq_of_lt hi, Nat.mod_eq_of_lt hj] at this
      exact hne (Fin.ext this)
    · simpa [symbolOf, Nat.mod_eq_of_lt hi, Nat.mod_eq_of_lt hj] using heq

/-- Settles O17: the charset part by `nodup_iff_symbolOf`, with the length in the type. -/
theorem csValidMeaning : Obligations.CsValidMeaning := by
  intro s
  refine ⟨?_, fun hv => ?_⟩
  · rw [csValid_iff, nodup_iff_symbolOf]; rfl
  · simpa [validCharset] using ((csValid_iff s).mp hv).2

end Sys2Proof.Machine
end

section
/-! SUPPORT. Runs of the machine, one input at a time, and the bits pending in an open encode message. -/

namespace Sys2Proof.Machine

open Codec

/-! ### Runs -/

theorem run_zero (s : State) : Machine.run 0 s = .next s := rfl

/-- A run takes the oldest input and goes on from the state it leaves. -/
theorem run_input {s : State} {x : HostInput} {rest : List HostInput} (hq : s.hostIn = x :: rest) (n : Nat) :
    Machine.run (n + 1) s = Machine.run n (afterInput x { s with hostIn := rest }) := by
  have hstep : Sys2Proof.core.step s = .next (afterInput x { s with hostIn := rest }) := step_input hq
  simp only [Machine.run, Host.Core.run, hstep]
  rfl

theorem afterInput_hostIn (x : HostInput) (s : State) : (afterInput x s).hostIn = s.hostIn :=
  (effect_afterInput x s).hostIn

theorem instr_of_fedBit {x : HostInput} {b : Bool} (h : x.fedBit = some b) : x.instr = some (.encBit b) := by
  unfold HostInput.fedBit at h
  split at h
  · simp_all
  · cases h

theorem fedBit_of_instr {x : HostInput} {b : Bool} (h : x.instr = some (.encBit b)) : x.fedBit = some b := by
  simp [HostInput.fedBit, h]

/-! ### Bits as numbers -/

/-- A sequence of bits as a number, most significant bit first (20_memory.md R39). -/
def bitsToNat (bs : List Bool) : Nat := bs.foldl (fun a y => 2 * a + y.toNat) 0

theorem bitsToNat_append_singleton (bs : List Bool) (b : Bool) :
    bitsToNat (bs ++ [b]) = 2 * bitsToNat bs + b.toNat := by
  simp [bitsToNat]

theorem bitsToNat_lt (bs : List Bool) : bitsToNat bs < 2 ^ bs.length := by
  induction bs using List.reverseRecOn with
  | nil => decide
  | append_singleton bs b ih =>
    have hb : b.toNat < 2 := b.toNat_lt
    rw [bitsToNat_append_singleton, List.length_append, List.length_singleton, Nat.pow_succ]
    omega

/-- The value of a group of six is its number (41_encoder.md R71). -/
theorem val_eq_bitsToNat {g : List Bool} (h : g.length = 6) : val g = bitsToNat g := by
  match g, h with
  | [a, b, c, d, e, f], _ =>
    simp [val, bitsToNat, List.range_succ]
    omega

/-! ### Groups -/

/-- The bits of the incomplete last group (10_state.md R26). -/
def pendingBits (bs : List Bool) : List Bool := bs.drop (6 * (bs.length / 6))

theorem pendingBits_length (bs : List Bool) : (pendingBits bs).length = bs.length % 6 := by
  rw [pendingBits, List.length_drop]
  omega

/-- A complete group is the same in a longer sequence. -/
theorem group_append {bs : List Bool} {k : Nat} (h : 6 * k + 6 ≤ bs.length) (cs : List Bool) :
    group (bs ++ cs) k = group bs k := by
  rw [group, group, List.drop_append_of_le_length (by omega), List.take_append_of_le_length]
  rw [List.length_drop]
  omega

/-- Fewer than five bits pending: one more joins them, and no group is completed. -/
theorem groups_append_pending {bs : List Bool} (b : Bool) (h : bs.length % 6 + 1 < 6) :
    groupValues (bs ++ [b]) = groupValues bs ∧ pendingBits (bs ++ [b]) = pendingBits bs ++ [b] := by
  have hdiv : (bs ++ [b]).length / 6 = bs.length / 6 := by simp; omega
  constructor
  · rw [groupValues, groupValues, hdiv]
    refine List.map_congr_left fun k hk => ?_
    have hk := List.mem_range.mp hk
    rw [group_append (by omega)]
  · rw [pendingBits, pendingBits, hdiv, List.drop_append_of_le_length (by omega)]

/-- Five bits pending: one more completes their group. -/
theorem groups_append_complete {bs : List Bool} (b : Bool) (h : bs.length % 6 = 5) :
    groupValues (bs ++ [b]) = groupValues bs ++ [BitVec.ofNat 6 (bitsToNat (pendingBits bs ++ [b]))] ∧
    pendingBits (bs ++ [b]) = [] := by
  have hdiv : (bs ++ [b]).length / 6 = bs.length / 6 + 1 := by simp; omega
  constructor
  · have hlast : group (bs ++ [b]) (bs.length / 6) = pendingBits bs ++ [b] := by
      rw [group, List.drop_append_of_le_length (by omega), List.take_of_length_le]
      · rfl
      · simp; omega
    have hsix : (pendingBits bs ++ [b]).length = 6 := by simp [pendingBits_length, h]
    rw [groupValues, hdiv, List.range_succ, List.map_append, List.map_singleton, hlast, val_eq_bitsToNat hsix]
    congr 1
    refine List.map_congr_left fun k hk => ?_
    have hk := List.mem_range.mp hk
    rw [group_append (by omega)]
  · rw [pendingBits, hdiv]
    simp; omega

theorem groupValues_length (bs : List Bool) : (groupValues bs).length = bs.length / 6 := by
  simp [groupValues]

/-! ### An open encode message -/

/-- The encoder has taken the bits `bs` of a message opened in the state `s`: the complete groups are emitted, the
incomplete one is in the registers (10_state.md R26). -/
structure Encoding (s : State) (bs : List Bool) (t : State) : Prop where
  busy : t.eBusy = true
  table : t.cs = s.cs
  emitted : t.eo = s.eo ++ (groupValues bs).map fun v => ⟨v, symbolOf s.cs v⟩
  count : t.eCnt.val = bs.length % 6
  pending : t.eAcc.toNat = bitsToNat (pendingBits bs)

/-- What else the host does leaves the encoder of an open message and the charset as they are (20_memory.md R47, R49). -/
theorem Effect.encoder_kept {x : HostInput} {s t : State} (h : Effect x s t) (hbusy : s.eBusy = true)
    (hx : x.StaysInEncode) (hb : x.fedBit = none) :
    t.eBusy = s.eBusy ∧ t.cs = s.cs ∧ t.eo = s.eo ∧ t.eCnt = s.eCnt ∧ t.eAcc = s.eAcc := by
  obtain ⟨hreset, hend⟩ := hx
  cases h with
  | reset hr => exact absurd hr hreset
  | maskCleared _ ho => simp [messageOpen, hbusy] at ho
  | entryWritten _ _ _ ho => simp [messageOpen, hbusy] at ho
  | encodeOpened _ hidle => simp [hbusy] at hidle
  | pushed b hi => simp [fedBit_of_instr hi] at hb
  | encodeClosed hi => exact absurd hi hend
  | _ => simp

/-- A push takes one more bit. -/
theorem Encoding.push {s t : State} {bs : List Bool} (h : Encoding s bs t) (b : Bool) :
    Encoding s (bs ++ [b]) (push b t) := by
  obtain ⟨hbusy, htable, hemitted, hcount, hpending⟩ := h
  have hlt : t.eAcc.toNat < 2 ^ t.eCnt.val := by
    rw [hpending, hcount, ← pendingBits_length]
    exact bitsToNat_lt _
  obtain ⟨hval, -⟩ := shiftIn_toNat t.eAcc t.eCnt.val b t.eCnt.isLt hlt
  rw [hpending, ← bitsToNat_append_singleton] at hval
  by_cases hroom : t.eCnt.val + 1 < 6
  · obtain ⟨hgroups, hbits⟩ := groups_append_pending (bs := bs) b (by omega)
    rw [push_pending b t hroom]
    refine ⟨hbusy, htable, by rw [hgroups]; exact hemitted, ?_, by rw [hbits]; exact hval⟩
    simp; omega
  · obtain ⟨hgroups, hbits⟩ := groups_append_complete (bs := bs) b (by omega)
    have hvalue : (t.eAcc <<< 1) ||| bitOperand b = BitVec.ofNat 6 (bitsToNat (pendingBits bs ++ [b])) := by
      rw [← hval, BitVec.ofNat_toNat, BitVec.setWidth_eq]
    rw [push_complete b t (by omega)]
    refine ⟨hbusy, htable, ?_, ?_, by rw [hbits]; rfl⟩
    · simp [hgroups, hemitted, hvalue, htable]
    · simp; omega

/-- An input that leaves the message open takes its bit, if it has one, and nothing else of the encoder. -/
theorem Encoding.afterInput {s t : State} {bs : List Bool} {x : HostInput} (h : Encoding s bs t)
    (hx : x.StaysInEncode) : Encoding s (bs ++ x.fedBit.toList) (afterInput x t) := by
  cases hb : x.fedBit with
  | some b =>
    have hpush : Machine.afterInput x t = Machine.push b t := by
      simp [afterInput_of_instr (instr_of_fedBit hb), afterCommand, h.busy]
    exact hpush ▸ h.push b
  | none =>
    obtain ⟨hbusy, hcs, heo, hcnt, hacc⟩ := (effect_afterInput x t).encoder_kept h.busy hx hb
    rw [Option.toList_none, List.append_nil]
    exact ⟨hbusy.trans h.busy, hcs.trans h.table, heo.trans h.emitted, hcnt ▸ h.count, hacc ▸ h.pending⟩

/-- Taking an input from the queue changes nothing of the message. -/
theorem Encoding.of_queue {s t : State} {bs : List Bool} (h : Encoding s bs t) (rest : List HostInput) :
    Encoding s bs { t with hostIn := rest } := ⟨h.busy, h.table, h.emitted, h.count, h.pending⟩

/-- A run over inputs that leave the message open takes their bits in order. -/
theorem Encoding.run {s t : State} {bs : List Bool} {mid rest : List HostInput} (h : Encoding s bs t)
    (hmid : ∀ x ∈ mid, x.StaysInEncode) (hq : t.hostIn = mid ++ rest) :
    ∃ u, Machine.run mid.length t = .next u ∧ u.hostIn = rest ∧ Encoding s (bs ++ fedBits mid) u := by
  induction mid generalizing t bs with
  | nil => exact ⟨t, run_zero t, hq, by simpa [fedBits] using h⟩
  | cons x mid ih =>
    have hnext := (h.of_queue (mid ++ rest)).afterInput (hmid x (List.mem_cons_self ..))
    obtain ⟨u, hrun, hrest, hu⟩ := ih hnext (fun y hy => hmid y (List.mem_cons_of_mem x hy)) (afterInput_hostIn x _)
    refine ⟨u, (run_input hq _).trans hrun, hrest, ?_⟩
    have hbits : fedBits (x :: mid) = x.fedBit.toList ++ fedBits mid := by
      cases hb : x.fedBit <;> simp [fedBits, hb]
    rwa [hbits, ← List.append_assoc]

/-- ENC_START opens a message with its leading sentinel (41_encoder.md R77). -/
theorem encoding_of_encStart {s : State} (hidle : s.eBusy = false) (hvalid : csValid s = true) :
    Encoding s [true] (afterInput (present .encStart) s) := by
  have hnext : afterInput (present .encStart) s = { s with eBusy := true, eAcc := 1, eCnt := 1 } := by
    rw [afterInput_of_instr (i := .encStart) (by decide), afterCommand_encStart_of_idle hidle hvalid]
  rw [hnext]
  exact ⟨rfl, rfl, (List.append_nil _).symm, rfl, rfl⟩

/-- Settles O31: ENC_START opens the message, and the run takes the bits of the inputs one by one. -/
theorem encoderProgress : Obligations.EncoderProgress := by
  intro s mid rest hidle hvalid hmid hq
  have hopen := encoding_of_encStart (s := { s with hostIn := mid ++ rest }) hidle hvalid
  obtain ⟨u, hrun, hrest, hu⟩ := hopen.run hmid (afterInput_hostIn _ _)
  refine ⟨u, (run_input hq _).trans hrun, hrest, hu.busy, hu.table, hu.emitted, ?_, hu.count, hu.pending⟩
  rw [hu.emitted, List.length_append, List.length_map, groupValues_length]
  rfl

end Sys2Proof.Machine
end

section
/-! SUPPORT. An open decode message: what the block holds and has emitted is what feeding the bit buffer leaves. -/

namespace Sys2Proof.Machine

open Codec

theorem instr_of_fedSymbol {x : HostInput} {c : Symbol} (h : x.fedSymbol = some c) : x.instr = some (.decSym c) := by
  unfold HostInput.fedSymbol at h
  split at h
  · simp_all
  · cases h

theorem fedSymbol_of_instr {x : HostInput} {c : Symbol} (h : x.instr = some (.decSym c)) : x.fedSymbol = some c := by
  simp [HostInput.fedSymbol, h]

/-! ### Feeding the buffer -/

theorem buf_append (ss ss' : List Symbol) (C : Charset) : buf (ss ++ ss') C = buf ss C ++ buf ss' C := by
  simp [buf]

/-- The local copies at the start of a message (42_decoder.md R90). -/
def emptyFeed : Feed := { lead := false, has1 := false, z := 0, out := [] }

/-- The local output list with bits already emitted before it. -/
def Feed.emittedAfter (out : List Bool) (f : Feed) : Feed := { f with out := out ++ f.out }

/-- What is emitted does not depend on what was emitted before (42_decoder.md R91). -/
theorem feed_emittedAfter (zmax : Nat) (out : List Bool) (f : Feed) (y : Bool) :
    feed zmax (f.emittedAfter out) y = (feed zmax f y).map (Feed.emittedAfter out) := by
  cases hl : f.lead <;> cases y <;> by_cases hz : f.z = zmax <;>
    simp [feed, Feed.emittedAfter, Feed.held, hl, hz]

theorem feedAll_emittedAfter (zmax : Nat) (out : List Bool) (f : Feed) (ys : List Bool) :
    feedAll zmax (f.emittedAfter out) ys = (feedAll zmax f ys).map (Feed.emittedAfter out) := by
  induction ys generalizing f with
  | nil => rfl
  | cons y ys ih => cases h : feed zmax f y <;> simp [feedAll_cons, feed_emittedAfter, h, ih]

/-- A buffer without a long run is fed without overflow, and this is what it leaves (10_state.md R32). -/
theorem feedAll_buffer {zmax : Nat} {B : List Bool} (hrun : ¬ LongRun zmax (B.drop 1)) :
    ∃ f, feedAll zmax emptyFeed B = some f ∧ f.lead = decide (B ≠ []) ∧
      ((∀ y ∈ B.drop 1, y = false) → f.has1 = false ∧ f.z = (B.drop 1).length ∧ f.out = []) ∧
      (∀ p k, B.drop 1 = p ++ true :: List.replicate k false → f.has1 = true ∧ f.z = k ∧ f.out = p) := by
  cases B with
  | nil => exact ⟨emptyFeed, rfl, rfl, fun _ => ⟨rfl, rfl, rfl⟩, fun p k h => by simp at h⟩
  | cons y ys =>
    rw [List.drop_one, List.tail_cons] at hrun ⊢
    have hrun : ¬ LongRun zmax (List.replicate 0 false ++ ys) := hrun
    obtain ⟨hzeros, hone⟩ := feedAll_fit zmax { emptyFeed with lead := true } ys rfl hrun
    rw [feedAll_lead zmax emptyFeed y ys rfl]
    obtain hall | ⟨p, k, rfl⟩ := zeros_or_one ys
    · refine ⟨_, hzeros hall, by simp, fun _ => ⟨rfl, Nat.zero_add _, rfl⟩, fun p k h => ?_⟩
      exact absurd (hall true (by simp [h])) (by decide)
    · refine ⟨_, hone p k rfl, by simp, fun h => absurd (h true (by simp)) (by decide), fun q l h => ?_⟩
      obtain ⟨rfl, rfl⟩ := zeros_true_unique h
      exact ⟨rfl, rfl, by simp [emptyFeed, Feed.held]⟩

/-! ### An open decode message -/

/-- The decoder has been fed the bits `B` of a message opened in the state `s`, without overflow. -/
structure Decoding (s : State) (B : List Bool) (t : State) : Prop where
  running : t.dState = .run
  table : t.cs = s.cs
  parameter : t.config = s.config
  fed : ∃ out, feedAll s.config.zmax emptyFeed B = some ((startFeed t).emittedAfter out) ∧ t.dout = s.dout ++ out

/-- What else the host does leaves the decoder of an open message and the charset as they are (20_memory.md R47, R49). -/
theorem Effect.decoder_kept {x : HostInput} {s t : State} (h : Effect x s t) (hrun : s.dState = .run)
    (hx : x.StaysInDecode) (hc : x.fedSymbol = none) :
    t.dState = s.dState ∧ t.cs = s.cs ∧ startFeed t = startFeed s ∧ t.dout = s.dout := by
  obtain ⟨hreset, hend⟩ := hx
  cases h with
  | reset hr => exact absurd hr hreset
  | maskCleared _ ho => simp [messageOpen, hrun] at ho
  | entryWritten _ _ _ ho => simp [messageOpen, hrun] at ho
  | decodeOpened _ hidle => simp [hrun] at hidle
  | fed c _ _ hi => simp [fedSymbol_of_instr hi] at hc
  | overflowed c _ hi => simp [fedSymbol_of_instr hi] at hc
  | decodeOk hi => exact absurd hi hend
  | decodeMalformed hi => exact absurd hi hend
  | decodeOverflow hi => exact absurd hi hend
  | _ => simp [startFeed]

/-- DEC_SYM that does not overflow feeds the symbol's bits, none where the symbol is unknown (42_decoder.md R92). -/
theorem Decoding.decSym {s t : State} {B : List Bool} {c : Symbol} (h : Decoding s B t)
    (hfit : (feedAll s.config.zmax emptyFeed (B ++ buf [c] s.cs)).isSome) :
    Decoding s (B ++ buf [c] s.cs) (afterCommand (.decSym c) t) := by
  obtain ⟨hrunning, htable, hparameter, out, hfed, hdout⟩ := h
  cases hl : lookup s.cs c with
  | none =>
    have hsame : afterCommand (.decSym c) t = t := by simp [afterCommand, hrunning, htable, hl]
    have hbits : buf [c] s.cs = [] := by simp [buf, hl]
    rw [hsame, hbits, List.append_nil]
    exact ⟨hrunning, htable, hparameter, out, hfed, hdout⟩
  | some v =>
    have hbits : buf [c] s.cs = expand v := by simp [buf, hl]
    rw [hbits] at hfit ⊢
    have happend : feedAll s.config.zmax emptyFeed (B ++ expand v) =
        (feedAll s.config.zmax (startFeed t) (expand v)).map (Feed.emittedAfter out) := by
      rw [feedAll_append, hfed, Option.bind_some, feedAll_emittedAfter]
    rw [happend, Option.isSome_map, Option.isSome_iff_exists] at hfit
    obtain ⟨f, hf⟩ := hfit
    have hnext : afterCommand (.decSym c) t = finishFeed f t := by
      simp [afterCommand, hrunning, htable, hparameter, hl, hf]
    rw [hnext]
    refine ⟨hrunning, htable, hparameter, out ++ f.out, ?_, ?_⟩
    · rw [happend, hf]
      simp [Feed.emittedAfter, startFeed]
    · rw [finishFeed_dout, hdout, List.append_assoc]

/-- An input that leaves the message open feeds its symbol, if it has one, and nothing else of the decoder. -/
theorem Decoding.afterInput {s t : State} {B : List Bool} {x : HostInput} (h : Decoding s B t)
    (hx : x.StaysInDecode) (hfit : (feedAll s.config.zmax emptyFeed (B ++ buf x.fedSymbol.toList s.cs)).isSome) :
    Decoding s (B ++ buf x.fedSymbol.toList s.cs) (afterInput x t) := by
  cases hc : x.fedSymbol with
  | some c =>
    rw [afterInput_of_instr (instr_of_fedSymbol hc)]
    exact h.decSym (by simpa [hc] using hfit)
  | none =>
    have heffect := effect_afterInput x t
    obtain ⟨hstate, hcs, hfeed, hdout⟩ := heffect.decoder_kept h.running hx hc
    obtain ⟨hrunning, htable, hparameter, out, hfed, hout⟩ := h
    have hnone : buf (none : Option Symbol).toList s.cs = [] := rfl
    rw [hnone, List.append_nil]
    exact ⟨hstate.trans hrunning, hcs.trans htable, heffect.config.trans hparameter, out, hfeed ▸ hfed,
      hdout.trans hout⟩

/-- Taking an input from the queue changes nothing of the message. -/
theorem Decoding.of_queue {s t : State} {B : List Bool} (h : Decoding s B t) (rest : List HostInput) :
    Decoding s B { t with hostIn := rest } := ⟨h.running, h.table, h.parameter, h.fed⟩

/-- A run over inputs that leave the message open feeds their symbols in order, when the whole buffer fits. -/
theorem Decoding.run {s t : State} {B : List Bool} {mid rest : List HostInput} (h : Decoding s B t)
    (hmid : ∀ x ∈ mid, x.StaysInDecode) (hq : t.hostIn = mid ++ rest)
    (hfit : (feedAll s.config.zmax emptyFeed (B ++ buf (fedSymbols mid) s.cs)).isSome) :
    ∃ u, Machine.run mid.length t = .next u ∧ u.hostIn = rest ∧ Decoding s (B ++ buf (fedSymbols mid) s.cs) u := by
  induction mid generalizing t B with
  | nil => exact ⟨t, run_zero t, hq, by simpa [fedSymbols, buf] using h⟩
  | cons x mid ih =>
    have hbuf : buf (fedSymbols (x :: mid)) s.cs = buf x.fedSymbol.toList s.cs ++ buf (fedSymbols mid) s.cs := by
      rw [← buf_append]
      cases hc : x.fedSymbol <;> simp [fedSymbols, hc]
    rw [hbuf, ← List.append_assoc] at hfit ⊢
    have hfirst : (feedAll s.config.zmax emptyFeed (B ++ buf x.fedSymbol.toList s.cs)).isSome := by
      rw [feedAll_append] at hfit
      exact Option.isSome_of_isSome_bind hfit
    have hnext := (h.of_queue (mid ++ rest)).afterInput (hmid x (List.mem_cons_self ..)) hfirst
    obtain ⟨u, hrun, hrest, hu⟩ :=
      ih hnext (fun y hy => hmid y (List.mem_cons_of_mem x hy)) (afterInput_hostIn x _) hfit
    exact ⟨u, (run_input hq _).trans hrun, hrest, hu⟩

/-- DEC_START opens a message with an empty buffer (42_decoder.md R90). -/
theorem decoding_of_decStart {s : State} (hidle : s.dState = .idle) (hvalid : csValid s = true) :
    Decoding s [] (afterInput (present .decStart) s) := by
  have hnext : afterInput (present .decStart) s =
      { s with dState := .run, dLead := false, dHas1 := false, dZ := 0, decResult := .none } := by
    rw [afterInput_of_instr (i := .decStart) (by decide)]
    simp [afterCommand, hidle, hvalid]
  rw [hnext]
  exact ⟨rfl, rfl, rfl, [], rfl, (List.append_nil _).symm⟩

/-- Settles O40: DEC_START opens the message, the run feeds the buffer, and `feedAll_buffer` says what that leaves. -/
theorem decoderProgress : Obligations.DecoderProgress := by
  rintro s mid rest B - hidle hvalid hmid hq rfl hlong
  obtain ⟨f, hf, hlead, hzeros, hone⟩ := feedAll_buffer hlong
  have hopen := decoding_of_decStart (s := { s with hostIn := mid ++ rest }) hidle hvalid
  obtain ⟨u, hrun, hrest, hu⟩ := hopen.run hmid (afterInput_hostIn _ _) (Option.isSome_of_eq_some hf)
  obtain ⟨hrunning, -, -, out, hfed, hdout⟩ := hu
  obtain rfl : f = (startFeed u).emittedAfter out := Option.some.inj (hf.symm.trans hfed)
  refine ⟨u, (run_input hq _).trans hrun, hrest, hrunning, hlead, fun hall => ?_, fun p k hp => ?_⟩
  · obtain ⟨hhas1, hz, hout⟩ := hzeros hall
    have hnil : out = [] := by simpa [Feed.emittedAfter, startFeed] using hout
    exact ⟨hhas1, hz, by simpa [hnil] using hdout⟩
  · obtain ⟨hhas1, hz, hout⟩ := hone p k hp
    have hp : out = p := by simpa [Feed.emittedAfter, startFeed] using hout
    exact ⟨hhas1, hz, by simpa [hp] using hdout⟩

end Sys2Proof.Machine
end

section
/-! SUPPORT. A command run by name, as an input of the block, and the frames of the commands (20_memory.md R44,
R47, R49). -/

namespace Sys2Proof.Machine

/-- Every command's word is selected by the row of its name (30_encoding.md R53). -/
theorem encodeRow (i : Instr) : Laws.EncodeRow.Statement i := by
  cases i with
  | nop => exact Laws.EncodeRow.nop
  | csClear => exact Laws.EncodeRow.csClear
  | csWrite idx sym => exact Laws.EncodeRow.csWrite idx sym
  | encStart => exact Laws.EncodeRow.encStart
  | encBit b => exact Laws.EncodeRow.encBit b
  | encEnd => exact Laws.EncodeRow.encEnd
  | decStart => exact Laws.EncodeRow.decStart
  | decSym sym => exact Laws.EncodeRow.decSym sym
  | decEnd => exact Laws.EncodeRow.decEnd
  | errClear => exact Laws.EncodeRow.errClear

/-- The fields of a command's word are its operands (30_encoding.md R52). -/
theorem withFields_encode (i : Instr) : withFields i.mnemonic (encode i) = i := by
  cases i with
  | csWrite idx sym => simp only [Instr.mnemonic, withFields, idxField_encode_csWrite, symField_encode_csWrite]
  | decSym sym => simp only [Instr.mnemonic, withFields, symField_encode_decSym]
  | encBit b => cases b <;> rfl
  | _ => rfl

/-- An input that presents a command presents that command (30_encoding.md R54). -/
@[simp] theorem instr_present (i : Instr) : (present i).instr = some i := by
  obtain ⟨r, hr, hname, hsel⟩ := encodeRow i
  have hrow : rowOf (opField (encode i)) = some r := opField_of_selected hr hsel ▸ rowOf_op r hr
  have hdecode : decode (encode i) = .cmd i :=
    decode_eq_cmd.mpr ⟨r, hrow, hsel, by rw [hname, withFields_encode]⟩
  simp only [present, HostInput.instr, hdecode]

@[simp] theorem present_ne_reset (i : Instr) : present i ≠ .reset := nofun

@[simp] theorem present_ne_read (i : Instr) (a : ReadAddr) : present i ≠ .read a := nofun

theorem exec_eq_next {i : Instr} {s t : State} : exec i s = .next t ↔ afterCommand i s = t := by
  rw [exec_eq, Host.Outcome.next.injEq]

/-- A command run by name has the effect it has when the host presents it. -/
theorem exec_effect {i : Instr} {s t : State} (h : exec i s = .next t) : Effect (present i) s t :=
  exec_eq_next.mp h ▸ effect_command (instr_present i) s

theorem messageOpen_iff {s : State} : messageOpen s = true ↔ s.eBusy = true ∨ s.dState ≠ .idle := by
  simp [messageOpen]

/-! ### The charset commands -/

/-- The sticky bit of SEQUENCE is bit 2 of `ERRBITS` (60_exceptions.md R105). -/
theorem recordError_sequence (s : State) :
    recordError .sequence s = { s with errBits := s.errBits ||| 0b00100, lastErr := some .sequence } := rfl

/-- Settles O21: both commands test `messageOpen` first, and the effect of any other input leaves the charset alone. -/
theorem charsetFixedDuringMessage : Obligations.CharsetFixedDuringMessage := by
  refine ⟨fun s hs => ?_, fun s t hs hreset h => ?_⟩
  · have hopen := messageOpen_iff.mpr hs
    rw [← recordError_sequence]
    exact ⟨by simp [exec_eq, afterCommand, hopen], fun idx sym => by simp [exec_eq, afterCommand, hopen]⟩
  · obtain rfl | ⟨x, rest, hq, he⟩ := step_effect h
    · exact ⟨rfl, rfl⟩
    obtain hsame | ⟨rfl, -⟩ | ⟨hclosed, -⟩ := he.charset
    · exact hsame
    · exact absurd (by rw [hq, List.head?_cons]) hreset
    · exact absurd (messageOpen_iff.mpr hs) (Bool.eq_false_iff.mp hclosed)

theorem recordError_recordError (e : ErrorCause) (s : State) :
    recordError e (recordError e s) = recordError e s := by
  simp only [recordError, BitVec.or_assoc, BitVec.or_self]

theorem writeEntry_writeEntry (idx : Value) (sym : Symbol) (s : State) :
    writeEntry idx sym (writeEntry idx sym s) = writeEntry idx sym s := by
  simp only [writeEntry, withEntry, Vector.set_set, BitVec.or_assoc, BitVec.or_self]

/-- A charset command with the write `act`: refused while a message is open (40_charset.md R65, R66). -/
def unlessOpen (act : State → State) (s : State) : State :=
  if messageOpen s then recordError .sequence s else act s

theorem afterCommand_csClear : afterCommand .csClear = unlessOpen clearMask := rfl

theorem afterCommand_csWrite (idx : Value) (sym : Symbol) :
    afterCommand (.csWrite idx sym) = unlessOpen (writeEntry idx sym) := rfl

/-- Neither the refusal nor the write opens or closes a message, so a repetition goes the same way. -/
theorem unlessOpen_twice {act : State → State} (hact : ∀ s, act (act s) = act s)
    (hopen : ∀ s, messageOpen (act s) = messageOpen s) (s : State) :
    unlessOpen act (unlessOpen act s) = unlessOpen act s := by
  cases ho : messageOpen s with
  | true =>
    have hkept : messageOpen (recordError .sequence s) = true := ho
    simp [unlessOpen, ho, hkept, recordError_recordError]
  | false => simp [unlessOpen, ho, hopen, hact]

/-- Settles O52: each command ends in an operation that changes nothing when it is repeated. -/
theorem idempotentCommands : Obligations.IdempotentCommands := by
  intro s t i hi h
  obtain rfl := exec_eq_next.mp h
  rw [exec_eq_next]
  obtain rfl | rfl | rfl | ⟨idx, sym, rfl⟩ := hi
  · rfl
  · rfl
  · rw [afterCommand_csClear]
    exact unlessOpen_twice (act := clearMask) (fun _ => rfl) (fun _ => rfl) s
  · rw [afterCommand_csWrite]
    exact unlessOpen_twice (writeEntry_writeEntry idx sym) (fun _ => rfl) s

/-! ### The frames of the engines' commands -/

/-- What the read port has returned is written by reads only (10_state.md R35). -/
theorem Effect.readOut {x : HostInput} {s t : State} (h : Effect x s t) :
    t.readOut = s.readOut ∨ ∃ a, x = .read a := by
  cases h with
  | answered a hx => exact .inr ⟨a, hx⟩
  | _ => exact .inl (by simp)

/-- A command that is not a charset command leaves the charset, and no command touches the host's side. -/
theorem exec_shared_frame {i : Instr} {s t : State} (hclear : i ≠ .csClear)
    (hwrite : ∀ idx sym, i ≠ .csWrite idx sym) (h : exec i s = .next t) :
    t.cs = s.cs ∧ t.csw = s.csw ∧ t.config = s.config ∧ t.hostIn = s.hostIn ∧ t.readOut = s.readOut := by
  have he := exec_effect h
  obtain ⟨hcs, hcsw⟩ := he.charset.resolve_right (by simp [hclear, hwrite])
  exact ⟨hcs, hcsw, he.config, he.hostIn, he.readOut.resolve_right (by simp)⟩

/-- Settles O53: an encoder command is none of the writers of the decoder's part. -/
theorem encoderFrame : Obligations.EncoderFrame := by
  intro s t i hi h
  have he := exec_effect h
  obtain ⟨hclear, hwrite, hstart, hsym, hend⟩ : i ≠ .csClear ∧ (∀ idx sym, i ≠ .csWrite idx sym) ∧
      i ≠ .decStart ∧ (∀ c, i ≠ .decSym c) ∧ i ≠ .decEnd := by
    obtain rfl | ⟨b, rfl⟩ | rfl := hi <;> simp
  obtain ⟨hstate, hlead, hhas1, hz, hdout⟩ := he.decoder.resolve_right (by simp [hstart, hsym, hend])
  have hresult := he.decResult.resolve_right (by simp [hstart, hend])
  exact ⟨hstate, hlead, hhas1, hz, hresult, hdout, exec_shared_frame hclear hwrite h⟩

/-- Settles O54: a decoder command is none of the writers of the encoder's part. -/
theorem decoderFrame : Obligations.DecoderFrame := by
  intro s t i hi h
  obtain ⟨hclear, hwrite, hstart, hbit, hend⟩ : i ≠ .csClear ∧ (∀ idx sym, i ≠ .csWrite idx sym) ∧
      i ≠ .encStart ∧ (∀ b, i ≠ .encBit b) ∧ i ≠ .encEnd := by
    obtain rfl | ⟨c, rfl⟩ | rfl := hi <;> simp
  obtain ⟨hbusy, hacc, hcnt, heo⟩ := (exec_effect h).encoder.resolve_right (by simp [hstart, hbit, hend])
  exact ⟨hbusy, hacc, hcnt, heo, exec_shared_frame hclear hwrite h⟩

end Sys2Proof.Machine
end

section
/-! SUPPORT. The two engines read their own registers and the charset only (20_memory.md R47): an engine's command does
the same in a state of which only these parts are kept. -/

namespace Sys2Proof.Machine

/-! ### The encoder -/

/-- What the encoder reads: the charset and its own registers. The rest is as after reset, EO empty. -/
def encoderPart (s : State) : State :=
  { State.reset with cs := s.cs, csw := s.csw, eBusy := s.eBusy, eAcc := s.eAcc, eCnt := s.eCnt }

@[simp] theorem encoderPart_eBusy (s : State) : (encoderPart s).eBusy = s.eBusy := rfl

@[simp] theorem csValid_encoderPart (s : State) : csValid (encoderPart s) = csValid s := rfl

theorem encoderPart_eq_iff {s s' : State} : encoderPart s = encoderPart s' ↔
    s.cs = s'.cs ∧ s.csw = s'.csw ∧ s.eBusy = s'.eBusy ∧ s.eAcc = s'.eAcc ∧ s.eCnt = s'.eCnt := by
  simp [encoderPart]

/-- What the encoder does from `s`, ending in `t`, is what it does from the part of `s` it reads, ending in `t'`. -/
structure EncoderLocal (s t t' : State) : Prop where
  part : encoderPart t = encoderPart t'
  items : t.eo = s.eo ++ t'.eo

theorem EncoderLocal.recordError (e : ErrorCause) (s : State) :
    EncoderLocal s (recordError e s) (recordError e (encoderPart s)) :=
  ⟨rfl, (List.append_nil _).symm⟩

/-- The push reads the pending bits, their count and the entry of the completed group (41_encoder.md R76). -/
theorem EncoderLocal.push (b : Bool) (s : State) : EncoderLocal s (push b s) (push b (encoderPart s)) := by
  by_cases h : s.eCnt.val + 1 < 6
  · rw [push_pending b s h, push_pending b (encoderPart s) h]
    exact ⟨rfl, (List.append_nil _).symm⟩
  · have h5 : s.eCnt.val = 5 := by omega
    rw [push_complete b s h5, push_complete b (encoderPart s) h5]
    exact ⟨rfl, rfl⟩

theorem encoderLocal_encStart (s : State) :
    EncoderLocal s (afterCommand .encStart s) (afterCommand .encStart (encoderPart s)) := by
  cases hb : s.eBusy with
  | true => simpa [afterCommand, hb] using EncoderLocal.recordError .sequence s
  | false =>
    cases hv : csValid s with
    | false => simpa [afterCommand, hb, hv] using EncoderLocal.recordError .invalidCharset s
    | true =>
      rw [afterCommand_encStart_of_idle hb hv, afterCommand_encStart_of_idle (s := encoderPart s) hb hv]
      exact ⟨rfl, (List.append_nil _).symm⟩

theorem encoderLocal_encBit (b : Bool) (s : State) :
    EncoderLocal s (afterCommand (.encBit b) s) (afterCommand (.encBit b) (encoderPart s)) := by
  cases hb : s.eBusy with
  | false => simpa [afterCommand, hb] using EncoderLocal.recordError .sequence s
  | true => simpa [afterCommand, hb] using EncoderLocal.push b s

theorem encoderLocal_encEnd (s : State) :
    EncoderLocal s (afterCommand .encEnd s) (afterCommand .encEnd (encoderPart s)) := by
  cases hb : s.eBusy with
  | false => simpa [afterCommand, hb] using EncoderLocal.recordError .sequence s
  | true =>
    rw [exec_eq_next.mp (exec_encEnd_of_open hb), exec_eq_next.mp (exec_encEnd_of_open (s := encoderPart s) hb)]
    exact ⟨rfl, rfl⟩

/-- Settles O55: the two states have the same encoder part, and the command is local to it. -/
theorem encoderIndependent : Obligations.EncoderIndependent := by
  intro s s' t t' i hi hcs hcsw hbusy hacc hcnt h h'
  have hlocal : ∀ s, EncoderLocal s (afterCommand i s) (afterCommand i (encoderPart s)) := by
    obtain rfl | ⟨b, rfl⟩ | rfl := hi
    · exact encoderLocal_encStart
    · exact encoderLocal_encBit b
    · exact encoderLocal_encEnd
  have hpart : encoderPart s = encoderPart s' := encoderPart_eq_iff.mpr ⟨hcs, hcsw, hbusy, hacc, hcnt⟩
  obtain rfl := exec_eq_next.mp h
  obtain rfl := exec_eq_next.mp h'
  have hsame : encoderPart (afterCommand i s) = encoderPart (afterCommand i s') := by
    rw [(hlocal s).part, (hlocal s').part, hpart]
  obtain ⟨-, -, hbusy, hacc, hcnt⟩ := encoderPart_eq_iff.mp hsame
  refine ⟨hbusy, hacc, hcnt, ?_⟩
  rw [(hlocal s).items, (hlocal s').items, hpart, List.drop_left, List.drop_left]

/-! ### The decoder -/

/-- What the decoder reads: `ZMAX`, the charset and its own registers. The rest is as after reset, DO empty. -/
def decoderPart (s : State) : State :=
  { State.reset with
    config := s.config, cs := s.cs, csw := s.csw, dState := s.dState, dLead := s.dLead, dHas1 := s.dHas1, dZ := s.dZ,
    decResult := s.decResult }

@[simp] theorem decoderPart_config (s : State) : (decoderPart s).config = s.config := rfl

@[simp] theorem decoderPart_cs (s : State) : (decoderPart s).cs = s.cs := rfl

@[simp] theorem decoderPart_dState (s : State) : (decoderPart s).dState = s.dState := rfl

@[simp] theorem decoderPart_dHas1 (s : State) : (decoderPart s).dHas1 = s.dHas1 := rfl

@[simp] theorem csValid_decoderPart (s : State) : csValid (decoderPart s) = csValid s := rfl

@[simp] theorem startFeed_decoderPart (s : State) : startFeed (decoderPart s) = startFeed s := rfl

theorem decoderPart_eq_iff {s s' : State} : decoderPart s = decoderPart s' ↔
    s.config = s'.config ∧ s.cs = s'.cs ∧ s.csw = s'.csw ∧ s.dState = s'.dState ∧ s.dLead = s'.dLead ∧
    s.dHas1 = s'.dHas1 ∧ s.dZ = s'.dZ ∧ s.decResult = s'.decResult := by
  simp [decoderPart]

/-- What the decoder does from `s`, ending in `t`, is what it does from the part of `s` it reads, ending in `t'`. -/
structure DecoderLocal (s t t' : State) : Prop where
  part : decoderPart t = decoderPart t'
  bits : t.dout = s.dout ++ t'.dout

/-- An operation that emits no bit is local when it does the same to the decoder's part. -/
theorem DecoderLocal.silent {s t t' : State} (hpart : decoderPart t = decoderPart t') (ht : t.dout = s.dout)
    (ht' : t'.dout = []) : DecoderLocal s t t' :=
  ⟨hpart, by rw [ht, ht', List.append_nil]⟩

theorem DecoderLocal.recordError (e : ErrorCause) (s : State) :
    DecoderLocal s (recordError e s) (recordError e (decoderPart s)) := .silent rfl rfl rfl

theorem DecoderLocal.closeDecoder (r : DecResult) (s : State) :
    DecoderLocal s (closeDecoder r s) (closeDecoder r (decoderPart s)) := .silent rfl rfl rfl

theorem DecoderLocal.overflow (s : State) : DecoderLocal s (Machine.recordError .runOverflow { s with dState := .fail })
    (Machine.recordError .runOverflow { decoderPart s with dState := .fail }) := .silent rfl rfl rfl

theorem DecoderLocal.finishFeed (f : Feed) (s : State) :
    DecoderLocal s (finishFeed f s) (finishFeed f (decoderPart s)) := ⟨rfl, rfl⟩

theorem decoderLocal_decStart (s : State) :
    DecoderLocal s (afterCommand .decStart s) (afterCommand .decStart (decoderPart s)) := by
  by_cases hi : s.dState = .idle
  · cases hv : csValid s with
    | false => simpa [afterCommand, hi, hv] using DecoderLocal.recordError .invalidCharset s
    | true =>
      simp only [afterCommand, decoderPart_dState, csValid_decoderPart, hi, hv, ne_eq, not_true_eq_false,
        Bool.true_eq_false, if_false]
      exact .silent rfl rfl rfl
  · simpa [afterCommand, hi] using DecoderLocal.recordError .sequence s

theorem decoderLocal_decSym (c : Symbol) (s : State) :
    DecoderLocal s (afterCommand (.decSym c) s) (afterCommand (.decSym c) (decoderPart s)) := by
  have hsame : DecoderLocal s s (decoderPart s) := .silent rfl rfl rfl
  cases hs : s.dState with
  | idle => simpa [afterCommand, hs] using DecoderLocal.recordError .sequence s
  | fail => simpa [afterCommand, hs] using hsame
  | run =>
    cases hl : lookup s.cs c with
    | none => simpa [afterCommand, hs, hl] using hsame
    | some v =>
      cases hf : feedAll s.config.zmax (startFeed s) (expand v) with
      | none => simpa [afterCommand, hs, hl, hf] using DecoderLocal.overflow s
      | some f => simpa [afterCommand, hs, hl, hf] using DecoderLocal.finishFeed f s

theorem decoderLocal_decEnd (s : State) :
    DecoderLocal s (afterCommand .decEnd s) (afterCommand .decEnd (decoderPart s)) := by
  cases hs : s.dState with
  | idle => simpa [afterCommand, hs] using DecoderLocal.recordError .sequence s
  | fail => simpa [afterCommand, hs] using DecoderLocal.closeDecoder .overflow s
  | run =>
    cases h1 : s.dHas1 with
    | true => simpa [afterCommand, hs, h1] using DecoderLocal.closeDecoder .ok s
    | false =>
      simp only [afterCommand, decoderPart_dState, decoderPart_dHas1, hs, h1, Bool.false_eq_true, if_false]
      exact .silent rfl rfl rfl

/-- Settles O56: the two states have the same decoder part, and the command is local to it. -/
theorem decoderIndependent : Obligations.DecoderIndependent := by
  intro s s' t t' i hi hconfig hcs hcsw hstate hlead hhas1 hz hresult h h'
  have hlocal : ∀ s, DecoderLocal s (afterCommand i s) (afterCommand i (decoderPart s)) := by
    obtain rfl | ⟨c, rfl⟩ | rfl := hi
    · exact decoderLocal_decStart
    · exact decoderLocal_decSym c
    · exact decoderLocal_decEnd
  have hpart : decoderPart s = decoderPart s' :=
    decoderPart_eq_iff.mpr ⟨hconfig, hcs, hcsw, hstate, hlead, hhas1, hz, hresult⟩
  obtain rfl := exec_eq_next.mp h
  obtain rfl := exec_eq_next.mp h'
  have hsame : decoderPart (afterCommand i s) = decoderPart (afterCommand i s') := by
    rw [(hlocal s).part, (hlocal s').part, hpart]
  obtain ⟨-, -, -, hstate, hlead, hhas1, hz, hresult⟩ := decoderPart_eq_iff.mp hsame
  refine ⟨hstate, hlead, hhas1, hz, hresult, ?_⟩
  rw [(hlocal s).bits, (hlocal s').bits, hpart, List.drop_left, List.drop_left]

end Sys2Proof.Machine
end

section
/-! SUPPORT. Decoding by the opcode map: the row that selects a word, the word a row and its fields make, and the words no
row selects (30_encoding.md R53 to R55). -/

namespace Sys2Proof.Machine

/-- A word is a command exactly when a row of the map selects it (30_encoding.md R54). -/
theorem decode_eq_cmd_iff_selected {w : Word} {i : Instr} :
    decode w = .cmd i ↔ ∃ r ∈ opcodeMap, w &&& r.mask = r.pattern ∧ i = withFields r.mnemonic w := by
  rw [decode_eq_cmd]
  constructor
  · rintro ⟨r, hrow, hsel, hi⟩
    exact ⟨r, (rowOf_mem hrow).1, hsel, hi⟩
  · rintro ⟨r, hr, hsel, hi⟩
    exact ⟨r, opField_of_selected hr hsel ▸ rowOf_op r hr, hsel, hi⟩

/-- Settles O1: the command's row selects its word, and the word's fields are the operands. -/
theorem decodeOfEncode : Obligations.DecodeOfEncode := by
  intro i
  obtain ⟨r, hr, hname, hsel⟩ := encodeRow i
  exact decode_eq_cmd_iff_selected.mpr ⟨r, hr, hsel, by rw [hname, withFields_encode]⟩

/-! The fields of a word, each in its place (30_encoding.md R52). -/

theorem opField_inPlace (w : Word) : (opField w).setWidth 32 <<< 28 = w &&& (0xF0000000 : Word) := by
  simp only [opField]; ext i hi; interval_cases i <;> simp

theorem idxField_inPlace (w : Word) : (idxField w).setWidth 32 <<< 21 = w &&& (0x07E00000 : Word) := by
  simp only [idxField]; ext i hi; interval_cases i <;> simp

theorem symField_inPlace (w : Word) : (symField w).setWidth 32 = w &&& (0x001FFFFF : Word) := by
  simp only [symField]; ext i hi; interval_cases i <;> simp

theorem bitField_inPlace (w : Word) : (BitVec.ofBool (bitField w)).setWidth 32 = w &&& (1 : Word) := by
  simp only [bitField]; ext i hi; interval_cases i <;> simp

/-- The word of a row's command has the row's match, and outside the mask the bits its fields were read from: with the
fields put in place, both sides keep the same bits of `w` in every row. -/
theorem encode_withFields (w : Word) :
    ∀ r ∈ opcodeMap, encode (withFields r.mnemonic w) = r.pattern ||| (w &&& ~~~r.mask) := by
  simp [opcodeMap, withFields, encode, idxField_inPlace, symField_inPlace, bitField_inPlace,
    BitVec.or_assoc, ← BitVec.and_or_distrib_left]

/-- Settles O2: the selecting row fixes the bits under its mask, the fields hold the others. -/
theorem encodeOfDecode : Obligations.EncodeOfDecode := by
  intro w i h
  obtain ⟨r, hr, hsel, rfl⟩ := decode_eq_cmd_iff_selected.mp h
  calc encode (withFields r.mnemonic w) = (w &&& r.mask) ||| (w &&& ~~~r.mask) := by
        rw [encode_withFields w r hr, hsel]
    _ = w := by
        rw [← BitVec.and_or_distrib_left, BitVec.or_not_self, BitVec.and_allOnes]

/-- The opcodes of the map's rows differ. -/
theorem row_eq_of_op_eq {r r' : Row} (hr : r ∈ opcodeMap) (hr' : r' ∈ opcodeMap) (h : r.op = r'.op) : r = r' :=
  Option.some.inj (by rw [← rowOf_op r hr, ← rowOf_op r' hr', h])

/-- A row's mask is the opcode and the bits its format reserves (30_encoding.md R53). -/
theorem row_mask_eq : ∀ r ∈ opcodeMap, r.mask = 0xF0000000 ||| r.format.reserved := by decide

/-- Settles O3: rows and masks are computed; a selected word has its row's opcode, and no two rows share one. -/
theorem decodeFollowsOpcodeMap : Obligations.DecodeFollowsOpcodeMap := by
  refine ⟨by decide, fun w i => decode_eq_cmd_iff_selected, row_mask_eq, fun w r hr r' hr' h h' => ?_⟩
  exact row_eq_of_op_eq hr hr' ((opField_of_selected hr h).symm.trans (opField_of_selected hr' h'))

/-- A row's match is its opcode, in place (30_encoding.md R53). -/
theorem row_pattern_eq : ∀ r ∈ opcodeMap, r.pattern = r.op.setWidth 32 <<< 28 := by decide

/-- The row of a word's opcode selects the word exactly when the reserved fields are zero (30_encoding.md R55). -/
theorem selected_iff_reserved_zero {w : Word} {r : Row} (hr : r ∈ opcodeMap) (hop : r.op = opField w) :
    w &&& r.mask = r.pattern ↔ w &&& r.format.reserved = 0 := by
  have hopcode : w &&& (0xF0000000 : Word) = r.pattern := by rw [← opField_inPlace, row_pattern_eq r hr, hop]
  have hreserved : ∀ r ∈ opcodeMap, r.mask &&& r.format.reserved = r.format.reserved ∧
      r.pattern &&& r.format.reserved = 0 := by decide
  obtain ⟨hmask, hpattern⟩ := hreserved r hr
  constructor
  · intro h
    calc w &&& r.format.reserved = (w &&& r.mask) &&& r.format.reserved := by rw [BitVec.and_assoc, hmask]
      _ = 0 := by rw [h, hpattern]
  · intro h
    rw [row_mask_eq r hr, BitVec.and_or_distrib_left, hopcode, h]
    exact BitVec.or_zero

/-- Decoding is total: a word that is no command is illegal (30_encoding.md R54). -/
theorem exists_illegal_iff {w : Word} : (∃ why, decode w = .illegal why) ↔ ∀ i, decode w ≠ .cmd i := by
  cases decode w <;> simp

/-- A word is illegal exactly when no row selects it (30_encoding.md R53, R54). -/
theorem exists_illegal_iff_not_selected {w : Word} :
    (∃ why, decode w = .illegal why) ↔ ∀ r ∈ opcodeMap, w &&& r.mask ≠ r.pattern := by
  simp only [exists_illegal_iff, ne_eq, decode_eq_cmd_iff_selected]
  exact ⟨fun h r hr hsel => h _ ⟨r, hr, hsel, rfl⟩, fun h i ⟨r, hr, hsel, _⟩ => h r hr hsel⟩

/-- The opcodes of the map are 0 to 9 (30_encoding.md R53). -/
theorem exists_row_iff (o : BitVec 4) : (∃ r ∈ opcodeMap, r.op = o) ↔ o.toNat < 0xA := by
  revert o; decide

/-- Settles O4: no row selects a word of an unassigned opcode, and the row of an assigned one selects exactly the words
whose reserved fields are zero; the step of an illegal word is `step_illegal`. -/
theorem illegalWordRaisesOnly : Obligations.IllegalWordRaisesOnly := by
  refine ⟨fun w => ?_, fun s w rest why hq hd => step_illegal hq hd⟩
  rw [exists_illegal_iff_not_selected]
  constructor
  · intro h
    by_cases hop : (opField w).toNat < 0xA
    · obtain ⟨r, hr, hrop⟩ := (exists_row_iff _).mpr hop
      exact .inr ⟨r, hr, hrop, mt (selected_iff_reserved_zero hr hrop).mpr (h r hr)⟩
    · exact .inl (Nat.not_lt.mp hop)
  · intro h r hr hsel
    have hrop : r.op = opField w := (opField_of_selected hr hsel).symm
    obtain hop | ⟨r', hr', hr'op, hres⟩ := h
    · exact absurd ((exists_row_iff _).mp ⟨r, hr, hrop⟩) (Nat.not_lt.mpr hop)
    · obtain rfl := row_eq_of_op_eq hr hr' (hrop.trans hr'op.symm)
      exact hres ((selected_iff_reserved_zero hr hrop).mp hsel)

/-- Settles O5: the first five are the words of their commands, the last has a 1 in the field its format reserves. -/
theorem spelledWordsDecode : Obligations.SpelledWordsDecode :=
  ⟨decodeOfEncode .nop, decodeOfEncode (.csWrite 63 0x6F), decodeOfEncode (.encBit true), decodeOfEncode (.decSym 0x65),
    decodeOfEncode .errClear, by decide⟩

end Sys2Proof.Machine
end

section
/-! SUPPORT. The assembler: which lines are refused, and the words of the lines accepted (30_encoding.md R58, R59). -/

namespace Sys2Proof.Machine.Assembler

/-! ### The words of the commands with operands, as numbers (30_encoding.md R51) -/

theorem toNat_append_eq_add {m n : Nat} (x : BitVec m) (y : BitVec n) :
    (x ++ y).toNat = x.toNat * 2 ^ n + y.toNat := by
  rw [BitVec.toNat_append, ← Nat.shiftLeft_add_eq_or_of_lt y.isLt, Nat.shiftLeft_eq]

theorem encode_csWrite_eq_append (x : Value) (s : Symbol) : encode (.csWrite x s) = (4#5 ++ x ++ s).setWidth 32 := by
  rw [BitVec.setWidth_append_append_eq_shiftLeft_setWidth_or]; rfl

theorem encode_decSym_eq_append (s : Symbol) : encode (.decSym s) = (0x380#11 ++ s).setWidth 32 := by
  rw [BitVec.setWidth_append_eq_shiftLeft_setWidth_or]; rfl

theorem encode_csWrite_toNat (x : Value) (s : Symbol) :
    (encode (.csWrite x s)).toNat = 0x20000000 + x.toNat * 2 ^ 21 + s.toNat := by
  rw [encode_csWrite_eq_append, BitVec.toNat_setWidth_of_le (by decide), toNat_append_eq_add, toNat_append_eq_add,
    BitVec.toNat_ofNat]
  omega

theorem encode_decSym_toNat (s : Symbol) : (encode (.decSym s)).toNat = 0x70000000 + s.toNat := by
  rw [encode_decSym_eq_append, BitVec.toNat_setWidth_of_le (by decide), toNat_append_eq_add, BitVec.toNat_ofNat]
  omega

theorem encode_encBit_toNat (b : Bool) : (encode (.encBit b)).toNat = 0x40000000 + b.toNat := by
  cases b <;> rfl

/-! ### The lines accepted -/

theorem indexInRange_iff {i : Nat} : indexInRange i = true ↔ i < 64 := decide_eq_true_iff

theorem symbolInRange_iff {x : Nat} : symbolInRange x = true ↔ x < 2 ^ 21 := decide_eq_true_iff

theorem bitInRange_iff {b : Nat} : bitInRange b = true ↔ b < 2 := decide_eq_true_iff

theorem wellFormed_csWrite {idx sym : Nat} :
    (AsmLine.csWrite idx sym).wellFormed = true ↔ idx < 64 ∧ sym < 2 ^ 21 := by
  rw [AsmLine.wellFormed, Bool.and_eq_true, indexInRange_iff, symbolInRange_iff]

theorem all_bitInRange {bs : List Nat} : bs.all bitInRange = true ↔ ∀ b ∈ bs, b < 2 := by
  simp only [List.all_eq_true, bitInRange_iff]

theorem all_symbolInRange {ss : List Nat} : ss.all symbolInRange = true ↔ ∀ x ∈ ss, x < 2 ^ 21 := by
  simp only [List.all_eq_true, symbolInRange_iff]

theorem wellFormed_csLoad {ss : List Nat} :
    (AsmLine.csLoad ss).wellFormed = true ↔ ss.length = 64 ∧ ∀ x ∈ ss, x < 2 ^ 21 := by
  rw [AsmLine.wellFormed, Bool.and_eq_true, beq_iff_eq, all_symbolInRange]

/-- A line is refused exactly when an operand is out of range (30_encoding.md R58). -/
theorem assemble_eq_none {l : AsmLine} : assemble l = none ↔ ¬ l.wellFormed = true := by
  simp [assemble]

/-- The words of an accepted line are those of its commands (30_encoding.md R58). -/
theorem assemble_eq_some {l : AsmLine} {ws : List Word} :
    assemble l = some ws ↔ l.wellFormed = true ∧ (expansion l).map encode = ws := by
  simp [assemble]

/-! ### The word of an operand in range -/

theorem bitOf_toNat {b : Nat} (hb : b < 2) : (bitOf b).toNat = b := by
  interval_cases b <;> rfl

theorem assemble_csWrite {idx sym : Nat} (hidx : idx < 64) (hsym : sym < 2 ^ 21) :
    assemble (.csWrite idx sym) = some [encode (.csWrite (BitVec.ofNat 6 idx) (BitVec.ofNat 21 sym))] ∧
    (encode (.csWrite (BitVec.ofNat 6 idx) (BitVec.ofNat 21 sym))).toNat = 0x20000000 + idx * 2 ^ 21 + sym := by
  refine ⟨assemble_eq_some.mpr ⟨wellFormed_csWrite.mpr ⟨hidx, hsym⟩, rfl⟩, ?_⟩
  rw [encode_csWrite_toNat, BitVec.toNat_ofNat, BitVec.toNat_ofNat, Nat.mod_eq_of_lt hidx, Nat.mod_eq_of_lt hsym]

theorem assemble_decSym {sym : Nat} (hsym : sym < 2 ^ 21) :
    assemble (.decSym sym) = some [encode (.decSym (BitVec.ofNat 21 sym))] ∧
    (encode (.decSym (BitVec.ofNat 21 sym))).toNat = 0x70000000 + sym := by
  refine ⟨assemble_eq_some.mpr ⟨symbolInRange_iff.mpr hsym, rfl⟩, ?_⟩
  rw [encode_decSym_toNat, BitVec.toNat_ofNat, Nat.mod_eq_of_lt hsym]

theorem assemble_encBit {b : Nat} (hb : b < 2) :
    assemble (.encBit b) = some [encode (.encBit (bitOf b))] ∧
    (encode (.encBit (bitOf b))).toNat = 0x40000000 + b :=
  ⟨assemble_eq_some.mpr ⟨bitInRange_iff.mpr hb, rfl⟩, by rw [encode_encBit_toNat, bitOf_toNat hb]⟩

/-! ### The statements -/

/-- The words of an accepted line decode to its commands. -/
theorem map_decode_map_encode (is : List Instr) : (is.map encode).map decode = is.map .cmd := by
  rw [List.map_map]
  exact List.map_congr_left fun i _ => decodeOfEncode i

/-- Settles O6: a line is refused exactly when it is not well formed; the words of one that is are encoded commands. -/
theorem assemblerWordsDecode : Obligations.AssemblerWordsDecode := by
  refine ⟨⟨rfl, rfl, rfl, rfl, rfl, rfl, rfl⟩, fun idx sym => ?_, fun sym => ?_, fun b => ?_, fun bs => ?_, fun ss => ?_,
    fun l ws h => ?_, fun idx sym hidx hsym => ⟨_, assemble_csWrite hidx hsym⟩, fun sym hsym => ⟨_, assemble_decSym hsym⟩,
    fun b hb => ⟨_, assemble_encBit hb⟩⟩
  · rw [assemble_eq_none, wellFormed_csWrite, not_and_or, Nat.not_lt, Nat.not_lt]
  · rw [assemble_eq_none, AsmLine.wellFormed, symbolInRange_iff, Nat.not_lt]
  · rw [assemble_eq_none, AsmLine.wellFormed, bitInRange_iff, Nat.not_lt]
  · simp only [assemble_eq_none, AsmLine.wellFormed, all_bitInRange, not_forall, Nat.not_lt, exists_prop, and_self]
  · have hlists : ¬ ss.all symbolInRange = true ↔ ∃ x ∈ ss, 2 ^ 21 ≤ x := by
      simp only [all_symbolInRange, not_forall, Nat.not_lt, exists_prop]
    refine ⟨assemble_eq_none.trans hlists, assemble_eq_none.trans hlists, ?_⟩
    rw [assemble_eq_none, wellFormed_csLoad, not_and_or, ← all_symbolInRange, hlists]
  · obtain ⟨-, rfl⟩ := assemble_eq_some.mp h
    exact map_decode_map_encode _

/-- `cs.load` numbers its operands from the index on (30_encoding.md R59). -/
theorem loadFrom_eq_mapIdx (k : Nat) (ss : List Nat) :
    loadFrom k ss = ss.mapIdx fun i x => .csWrite (BitVec.ofNat 6 (k + i)) (BitVec.ofNat 21 x) := by
  induction ss generalizing k with
  | nil => rfl
  | cons x xs ih =>
    rw [loadFrom, ih, List.mapIdx_cons]
    simp only [Nat.add_zero, Nat.add_assoc, Nat.add_comm 1]

/-- Settles O7: each expansion is a list of commands made operand by operand, and each operand of an accepted line is in
range. -/
theorem pseudoInstructionsExpand : Obligations.PseudoInstructionsExpand := by
  refine ⟨fun bs ws h => ?_, fun ss ws h => ?_, fun ss ws h => ?_⟩
  all_goals obtain ⟨hwf, rfl⟩ := assemble_eq_some.mp h
  · have hbits := all_bitInRange.mp hwf
    refine ⟨by simp [expansion], fun i b hb => ?_, assemble_eq_some.mpr ⟨hwf, by simp [expansion, encode]⟩⟩
    exact ⟨_, by simp [expansion, hb], assemble_encBit (hbits b (List.mem_of_getElem? hb))⟩
  · have hsyms := all_symbolInRange.mp hwf
    refine ⟨by simp [expansion], fun i x hx => ?_, assemble_eq_some.mpr ⟨hwf, by simp [expansion, encode]⟩⟩
    exact ⟨_, by simp [expansion, hx], assemble_decSym (hsyms x (List.mem_of_getElem? hx))⟩
  · obtain ⟨hlen, hsyms⟩ := wellFormed_csLoad.mp hwf
    refine ⟨by simp [expansion, loadFrom_eq_mapIdx, hlen], hlen, rfl, fun i x hx => ?_⟩
    have hi : i < 64 := hlen ▸ (List.getElem?_eq_some_iff.mp hx).1
    exact ⟨_, by simp [expansion, loadFrom_eq_mapIdx, hx], assemble_csWrite hi (hsyms x (List.mem_of_getElem? hx))⟩

end Sys2Proof.Machine.Assembler
end

section
/-! SUPPORT. The charset table: lookup on a valid charset, and what CS_CLEAR and CS_WRITE do with both engines idle
(40_charset.md). -/

namespace Sys2Proof.Machine

open Codec

/-! ### Lookup on a valid charset -/

/-- The length that R60 asks of a charset is in the type of the table. -/
theorem validCharset_toList_iff (C : Charset) : validCharset C.toList = true ↔ C.toList.Nodup := by
  simp [validCharset]

/-- A valid charset gives different values different symbols (40_charset.md R60, R63). -/
theorem symbolOf_injective {C : Charset} (hvalid : validCharset C.toList = true) : (symbolOf C).Injective := by
  intro i j heq
  by_contra hne
  exact (nodup_iff_symbolOf C).mp ((validCharset_toList_iff C).mp hvalid) i j hne heq

/-- On a valid charset the value found is the only one whose symbol is looked up (40_charset.md R64). -/
theorem lookup_eq_some_iff {C : Charset} {x : Symbol} {v : Value} (hvalid : validCharset C.toList = true) :
    lookup C x = some v ↔ symbolOf C v = x := by
  refine ⟨symbolOf_of_lookup, fun hv => ?_⟩
  cases hfound : lookup C x with
  | none => exact absurd hv (lookup_eq_none.mp hfound v)
  | some w => rw [symbolOf_injective hvalid ((symbolOf_of_lookup hfound).trans hv.symm)]

/-- Settles O18: what is found by `lookup_eq_some_iff`; that nothing is found needs no validity. -/
theorem lookupInverse : Obligations.LookupInverse :=
  fun _ _ hvalid => ⟨fun _ => lookup_eq_some_iff hvalid, lookup_eq_none⟩

/-! ### CS_CLEAR and CS_WRITE with both engines idle -/

theorem messageOpen_eq_false_iff {s : State} : messageOpen s = false ↔ s.eBusy = false ∧ s.dState = .idle := by
  simp [messageOpen]

/-- A charset command is not refused while both engines are idle (40_charset.md R65, R66). -/
theorem unlessOpen_of_idle (act : State → State) {s : State} (hbusy : s.eBusy = false) (hidle : s.dState = .idle) :
    unlessOpen act s = act s := by
  simp [unlessOpen, messageOpen_eq_false_iff.mpr ⟨hbusy, hidle⟩]

/-- An entry is missing from a cleared mask (10_state.md R23). -/
theorem csValid_clearMask (s : State) : csValid (clearMask s) = false := by
  rw [Bool.eq_false_iff, ne_eq, csValid_iff, clearMask_csw]
  exact fun ⟨hmask, _⟩ => absurd hmask (by decide)

/-- `CSW` after a write has the bit of the index written and the bits it had (40_charset.md R66). -/
theorem writeEntry_csw_getLsbD (i : Value) (c : Symbol) (s : State) (k : Nat) :
    (writeEntry i c s).csw.getLsbD k = (s.csw.getLsbD k || decide (i.toNat = k)) := by
  rw [writeEntry_csw, ← BitVec.twoPow_eq, BitVec.getLsbD_or, BitVec.getLsbD_twoPow, decide_eq_true i.isLt, Bool.true_and]

/-- Settles O20: the command is `writeEntry`, whose table and mask are known entry by entry and bit by bit. -/
theorem csWriteWrites : Obligations.CsWriteWrites := by
  intro s idx sym hbusy hidle
  refine ⟨(writeEntry idx sym s).cs, (writeEntry idx sym s).csw, ?_, ?_, fun v hv => ?_, ?_, fun k hk => ?_⟩
  · rw [exec_eq, afterCommand_csWrite, unlessOpen_of_idle _ hbusy hidle]
    rfl
  · rw [writeEntry_cs, symbolOf_withEntry_self]
  · rw [writeEntry_cs, symbolOf_withEntry_of_ne _ _ hv]
  · rw [writeEntry_csw_getLsbD, decide_eq_true rfl, Bool.or_true]
  · rw [writeEntry_csw_getLsbD, decide_eq_false hk.symm, Bool.or_false]

/-- Settles O19: the command is `clearMask`, which leaves the mask with no entry written. -/
theorem csClearClears : Obligations.CsClearClears := by
  intro s hbusy hidle
  refine ⟨?_, csValid_clearMask s⟩
  rw [exec_eq, afterCommand_csClear, unlessOpen_of_idle _ hbusy hidle]
  rfl

end Sys2Proof.Machine
end

section
/-! SUPPORT. The encoder's commands by the state they start from (41_encoder.md R76 to R81). -/

namespace Sys2Proof.Machine

/-- Settles O24: a message opens with the leading sentinel pending. -/
theorem encStartOpens : Obligations.EncStartOpens :=
  fun _ hidle hvalid => exec_eq_next.mpr (afterCommand_encStart_of_idle hidle hvalid)

/-- The sticky bit of INVALID_CHARSET is bit 1 of `ERRBITS` (60_exceptions.md R105). -/
theorem recordError_invalidCharset (s : State) :
    recordError .invalidCharset s = { s with errBits := s.errBits ||| 0b00010, lastErr := some .invalidCharset } := rfl

/-- Settles O25: the command tests `E_BUSY` first and `CS_VALID` after it. -/
theorem encStartErrors : Obligations.EncStartErrors := by
  intro s
  rw [← recordError_sequence, ← recordError_invalidCharset]
  refine ⟨fun hopen => exec_eq_next.mpr ?_, fun hidle hinvalid => exec_eq_next.mpr ?_⟩
  · simp only [afterCommand, hopen, if_true]
  · simp only [afterCommand, hidle, hinvalid, Bool.false_eq_true, if_false, if_true]

/-- Settles O26: the command is the push, by the number of bits pending. -/
theorem encBitPushes : Obligations.EncBitPushes := by
  intro s b hopen
  rw [exec_encBit_of_open b hopen]
  refine ⟨fun hroom => ?_, fun hfull => ⟨_, rfl, ?_⟩⟩
  · rw [push_pending b s hroom]; rfl
  · rw [push_complete b s hfull]; rfl

/-- Settles O28: the item's value is `endValue`, whose sentinel is the operand of a 1. -/
theorem encEndEmitsOne : Obligations.EncEndEmitsOne :=
  fun s hopen => ⟨endValue s, rfl, exec_encEnd_of_open hopen⟩

/-- Settles O29: both commands test `E_BUSY` before they push. -/
theorem encoderIdleRejects : Obligations.EncoderIdleRejects := by
  intro s hidle
  rw [← recordError_sequence]
  refine ⟨exec_eq_next.mpr ?_, fun b => exec_eq_next.mpr ?_⟩ <;> simp only [afterCommand, hidle, if_true]

end Sys2Proof.Machine
end

section
/-! SUPPORT. The wrapped sequence and its groups: how many there are, the first one, and the last one with the trailing
sentinel and the padding (41_encoder.md R69 to R75). -/

namespace Sys2Proof.Machine

open Codec

/-! ### Lengths -/

theorem pad_le_five (n : Nat) : pad n ≤ 5 := by
  rw [pad]; omega

/-- The bits pending before ENC_END, the trailing sentinel and the padding make one group (41_encoder.md R79). -/
theorem pad_eq (n : Nat) : pad n = 5 - (n + 1) % 6 := by
  rw [pad]; omega

theorem wrap_length (b : List Bool) : (wrap b).length = 6 * ((b.length + 7) / 6) := by
  simp only [wrap, List.length_append, List.length_replicate, List.length_singleton, pad]
  omega

theorem values_length (b : List Bool) : (values b).length = (b.length + 7) / 6 := by
  rw [values, groupValues_length, wrap_length, Nat.mul_div_cancel_left _ (by decide)]

theorem enc_length (b : List Bool) (C : Charset) : (enc b C).length = (b.length + 7) / 6 := by
  rw [enc, List.length_map, values_length]

/-- Settles O32: the encoding has a symbol for each group of the wrapped sequence. -/
theorem encLength : Obligations.EncLength :=
  fun b C => ⟨enc_length b C, wrap_length b, pad_le_five b.length⟩

/-! ### Single groups -/

theorem group_length {w : List Bool} {k : Nat} (h : 6 * k + 6 ≤ w.length) : (group w k).length = 6 := by
  rw [group, List.length_take, List.length_drop]
  omega

theorem val_lt {g : List Bool} (h : g.length = 6) : val g < 64 :=
  (val_eq_bitsToNat h).trans_lt (by simpa [h] using bitsToNat_lt g)

/-- The first bit of a group is its most significant one (20_memory.md R39). -/
theorem le_val_of_first_one (g : List Bool) : 32 ≤ val (true :: g) := by
  simp [val, List.range_succ_eq_map]

theorem val_expand (v : Value) : val (expand v) = v.toNat := by
  revert v; decide

theorem values_getElem? {b : List Bool} {k : Nat} (h : k < (b.length + 7) / 6) :
    (values b)[k]? = some (BitVec.ofNat 6 (val (group (wrap b) k))) := by
  have hk : k < (wrap b).length / 6 := by rw [wrap_length]; omega
  rw [values, groupValues, List.getElem?_map, List.getElem?_range hk, Option.map_some]

/-- The first value has the leading sentinel as its most significant bit (41_encoder.md R75). -/
theorem values_head? (b : List Bool) : ∃ v : Value, (values b).head? = some v ∧ 32 ≤ v.toNat := by
  refine ⟨_, List.head?_eq_getElem?.trans (values_getElem? (by omega)), ?_⟩
  have hfits : val (group (wrap b) 0) < 64 := val_lt (group_length (by rw [wrap_length]; omega))
  rw [BitVec.toNat_ofNat, Nat.mod_eq_of_lt hfits]
  exact le_val_of_first_one _

/-! ### The last group -/

/-- Bits that fill up the incomplete last group complete it and no other. -/
theorem groupValues_append_filling {bs cs : List Bool} (h : bs.length % 6 + cs.length = 6) :
    groupValues (bs ++ cs) = groupValues bs ++ [BitVec.ofNat 6 (bitsToNat (pendingBits bs ++ cs))] := by
  induction cs generalizing bs with
  | nil => rw [List.length_nil] at h; omega
  | cons c cs ih =>
    rw [List.length_cons] at h
    cases cs with
    | nil => exact (groups_append_complete c (by simpa using h)).1
    | cons d cs =>
      rw [List.length_cons] at h
      obtain ⟨hgroups, hbits⟩ := groups_append_pending (bs := bs) c (by omega)
      have hrest := ih (bs := bs ++ [c]) (by simp; omega)
      rwa [hgroups, hbits, List.append_assoc, List.append_assoc] at hrest

theorem bitsToNat_append_zeros (bs : List Bool) (k : Nat) :
    bitsToNat (bs ++ List.replicate k false) = bitsToNat bs * 2 ^ k := by
  induction k with
  | zero => simp
  | succ k ih =>
    rw [List.replicate_succ', ← List.append_assoc, bitsToNat_append_singleton, ih, Nat.pow_succ, Bool.toNat_false]
    ring

/-- The last value of an encoding (41_encoder.md R79): the bits after the complete groups of the leading sentinel and the
input, the trailing sentinel, and the padding. -/
def lastValue (b : List Bool) : Value :=
  BitVec.ofNat 6 (bitsToNat (pendingBits (true :: b) ++ true :: List.replicate (pad b.length) false))

theorem values_eq_append_last (b : List Bool) : values b = groupValues (true :: b) ++ [lastValue b] := by
  have hwrap : wrap b = (true :: b) ++ true :: List.replicate (pad b.length) false := by simp [wrap]
  rw [values, hwrap]
  refine groupValues_append_filling ?_
  rw [List.length_cons, List.length_cons, List.length_replicate, pad_eq]
  omega

theorem lastValue_toNat (b : List Bool) :
    (lastValue b).toNat = (2 * bitsToNat (pendingBits (true :: b)) + 1) * 2 ^ pad b.length := by
  have hsix : (pendingBits (true :: b) ++ true :: List.replicate (pad b.length) false).length = 6 := by
    rw [List.length_append, pendingBits_length, List.length_cons, List.length_cons, List.length_replicate, pad_eq]
    omega
  have hfits := bitsToNat_lt (pendingBits (true :: b) ++ true :: List.replicate (pad b.length) false)
  rw [hsix] at hfits
  rw [lastValue, BitVec.toNat_ofNat, Nat.mod_eq_of_lt hfits, List.append_cons, bitsToNat_append_zeros,
    bitsToNat_append_singleton, Bool.toNat_true]

/-- The trailing sentinel is a 1 in the last value (41_encoder.md R75). -/
theorem lastValue_ne_zero (b : List Bool) : lastValue b ≠ 0 := by
  intro h
  have hpos : 0 < (lastValue b).toNat := by rw [lastValue_toNat]; positivity
  exact absurd (h ▸ hpos) (by decide)

/-- Settles O33: the first value by `values_head?`, the last by `values_eq_append_last`; any six bits are a group of their
own after the leading sentinel and five bits. -/
theorem encShape : Obligations.EncShape := by
  refine ⟨fun b => ?_, fun v _ => ⟨List.replicate 5 false ++ expand v, 1, by decide, ?_, ?_⟩⟩
  · obtain ⟨v, hfirst, hv⟩ := values_head? b
    refine ⟨v, lastValue b, hfirst, ?_, hv, lastValue_ne_zero b, ?_⟩
    · rw [values_eq_append_last, List.getLast?_concat]
    · rw [lastValue_toNat]
      exact Dvd.intro_left _ rfl
  · rw [values_length]
    simp
  · have hgroup : group (wrap (List.replicate 5 false ++ expand v)) 1 = expand v := rfl
    rw [values_getElem? (by simp), hgroup, val_expand, BitVec.ofNat_toNat, BitVec.setWidth_eq]

end Sys2Proof.Machine
end

section
/-! SUPPORT. The end of an encode message: the items of a whole message (41_encoder.md R80). -/

namespace Sys2Proof.Machine

open Codec

/-- A run that goes on is the run from the state reached. -/
theorem core_run_add {M : Host.Core} {s u : M.State} {n : Nat} (h : M.run n s = .next u) (m : Nat) :
    M.run (n + m) s = M.run m u := by
  induction n generalizing s with
  | zero => obtain rfl := Host.Outcome.next.inj h; rw [Nat.zero_add]
  | succ n ih =>
    rw [Nat.add_right_comm]
    cases hs : M.step s with
    | next t => simp only [Host.Core.run, hs] at h ⊢; exact ih h
    | fault r => simp [Host.Core.run, hs] at h
    | refused r => simp [Host.Core.run, hs] at h

/-- The run up to an input, and then the input. -/
theorem run_then_input {s u : State} {n : Nat} {x : HostInput} {rest : List HostInput}
    (h : Machine.run n s = .next u) (hq : u.hostIn = x :: rest) :
    Machine.run (n + 1) s = .next (afterInput x { u with hostIn := rest }) :=
  (core_run_add h 1).trans (run_input hq 0)

/-- The pending bits of an open message are below `2 ^ E_CNT` (10_state.md R26). -/
theorem Encoding.eAcc_lt {s t : State} {bs : List Bool} (h : Encoding s bs t) : t.eAcc.toNat < 2 ^ t.eCnt.val := by
  rw [h.pending, h.count, ← pendingBits_length]
  exact bitsToNat_lt _

/-- ENC_END emits the last value of the encoding (41_encoder.md R79). -/
theorem Encoding.endValue_eq {s t : State} {b : List Bool} (h : Encoding s (true :: b) t) :
    endValue t = lastValue b := by
  apply BitVec.eq_of_toNat_eq
  rw [endValue_toNat h.eAcc_lt, lastValue_toNat, h.pending, h.count, List.length_cons, pad_eq]

/-- ENC_END closes the message, and its items are the values of the encoding (41_encoder.md R80). -/
theorem Encoding.closed {s t : State} {b : List Bool} (h : Encoding s (true :: b) t) :
    (Machine.afterInput (present .encEnd) t).eBusy = false ∧
    (Machine.afterInput (present .encEnd) t).eo = s.eo ++ (values b).map fun v => ⟨v, symbolOf s.cs v⟩ := by
  have hend := exec_eq_next.mp (exec_encEnd_of_open h.busy)
  rw [afterInput_of_instr (instr_present _), hend]
  refine ⟨rfl, ?_⟩
  rw [values_eq_append_last, List.map_append, List.map_singleton, ← List.append_assoc, ← h.emitted, ← h.endValue_eq,
    h.table]

/-- `encoderProgress` in terms of `Encoding`. -/
theorem encoding_of_message {s : State} {mid rest : List HostInput} (hidle : s.eBusy = false)
    (hvalid : csValid s = true) (hmid : ∀ x ∈ mid, x.StaysInEncode)
    (hq : s.hostIn = present .encStart :: (mid ++ rest)) :
    ∃ u, Machine.run (mid.length + 1) s = .next u ∧ u.hostIn = rest ∧ Encoding s (true :: fedBits mid) u := by
  obtain ⟨u, hrun, hrest, hbusy, hcs, heo, -, hcnt, hacc⟩ := encoderProgress s mid rest hidle hvalid hmid hq
  exact ⟨u, hrun, hrest, hbusy, hcs, heo, hcnt, hacc⟩

/-- Settles O30: a first part of the message by `encoderProgress`, the whole of it by `Encoding.closed`. -/
theorem encoderMessageResult : Obligations.EncoderMessageResult := by
  intro s mid rest hidle hvalid hmid hq
  constructor
  · rintro pre post rfl
    have hpre : ∀ x ∈ pre, x.StaysInEncode := fun x hx => hmid x (List.mem_append_left post hx)
    rw [List.append_assoc] at hq
    obtain ⟨u, hrun, -, -, -, -, hlength, -⟩ := encoderProgress s pre _ hidle hvalid hpre hq
    exact ⟨u, hrun, hlength⟩
  · obtain ⟨u, hrun, hrest, hu⟩ := encoding_of_message hidle hvalid hmid hq
    obtain ⟨hclosed, heo⟩ := (hu.of_queue rest).closed
    refine ⟨_, run_then_input hrun hrest, afterInput_hostIn _ _, hclosed, ?_, heo, ?_⟩
    · rw [heo, List.length_append, List.length_map, values_length]
      omega
    · rw [heo, List.drop_left, List.map_map]
      rfl

end Sys2Proof.Machine
end

section
/-! SUPPORT. The decode function on whole sequences: the expansion of values, the buffer of an encoding, and what is
left of a buffer (42_decoder.md R84 to R89, R96 to R98). -/

namespace Sys2Proof.Machine

open Codec

/-! ### Expansion -/

theorem expand_val {g : List Bool} (h : g.length = 6) : expand (BitVec.ofNat 6 (val g)) = g := by
  match g, h with
  | [a, b, c, d, e, f], _ => revert a b c d e f; decide

/-- Settles O49: `val_expand` and `expand_val`, with the places of the bits as the definition lists them. -/
theorem expandInverse : Obligations.ExpandInverse := by
  refine ⟨fun v => ⟨val_expand v, expand_length v, fun j hj => ?_⟩, fun g hg => ⟨val_lt hg, expand_val hg⟩⟩
  interval_cases j <;> rfl

/-! ### The buffer -/

theorem expand_groupValues (w : List Bool) :
    (groupValues w).map expand = (List.range (w.length / 6)).map (group w) := by
  rw [groupValues, List.map_map]
  refine List.map_congr_left fun k hk => expand_val (group_length ?_)
  have hk := List.mem_range.mp hk
  omega

/-- The groups in order are the sequence they are cut from (41_encoder.md R71). -/
theorem flatten_groups (w : List Bool) (n : Nat) : ((List.range n).map (group w)).flatten = w.take (6 * n) := by
  induction n with
  | zero => rfl
  | succ n ih =>
    rw [List.range_succ, List.map_append, List.flatten_append, ih, List.map_singleton, List.flatten_singleton,
      Nat.mul_succ, List.take_add, group]

/-- The symbols of values are looked up to these values, so they expand to their bits (42_decoder.md R85). -/
theorem buf_map_symbolOf {C : Charset} (hvalid : validCharset C.toList = true) (vs : List Value) :
    buf (vs.map (symbolOf C)) C = (vs.map expand).flatten := by
  have hlookup : lookup C ∘ symbolOf C = some := funext fun v => (lookup_eq_some_iff hvalid).mpr rfl
  rw [buf, List.filterMap_map, hlookup, List.filterMap_some]

theorem buf_symbolOf {C : Charset} (hvalid : validCharset C.toList = true) (v : Value) :
    buf [symbolOf C v] C = expand v := by
  simpa using buf_map_symbolOf hvalid [v]

/-- The buffer of an encoding is the wrapped sequence (42_decoder.md R96). -/
theorem buf_enc {C : Charset} (hvalid : validCharset C.toList = true) (b : List Bool) : buf (enc b C) C = wrap b := by
  rw [enc, buf_map_symbolOf hvalid, values, expand_groupValues, flatten_groups, List.take_of_length_le]
  rw [wrap_length]
  omega

/-- After the leading sentinel the wrapped sequence has its last 1 at the trailing sentinel (41_encoder.md R70). -/
theorem drop_one_wrap (b : List Bool) : (wrap b).drop 1 = b ++ true :: List.replicate (pad b.length) false := by
  simp [wrap]

/-- A symbol outside the charset adds nothing to the buffer (42_decoder.md R83). -/
theorem buf_unknown {C : Charset} {x : Symbol} (hx : ∀ v : Value, symbolOf C v ≠ x) (ss ss' : List Symbol) :
    buf (ss ++ x :: ss') C = buf (ss ++ ss') C := by
  rw [buf, buf, List.filterMap_append, List.filterMap_append, List.filterMap_cons_none (lookup_eq_none.mpr hx)]

/-! ### What is left of a buffer -/

/-- Trailing zeros are stripped up to the last 1 (42_decoder.md R86). -/
theorem strip_last_one (p : List Bool) (k : Nat) : strip (p ++ true :: List.replicate k false) = p ++ [true] := by
  have hrev : (p ++ true :: List.replicate k false).reverse = List.replicate k false ++ true :: p.reverse := by simp
  rw [strip, hrev, List.dropWhile_append_of_pos (by simp), List.dropWhile_cons_of_neg (by decide), List.reverse_cons,
    List.reverse_reverse]

theorem strip_zeros (k : Nat) : strip (List.replicate k false) = [] := by
  simp [strip]

/-- `Dec` depends on the buffer only (42_decoder.md R88). -/
theorem dec_congr {ss ss' : List Symbol} {C C' : Charset} (h : buf ss C = buf ss' C') : dec ss C = dec ss' C' := by
  rw [dec, dec, h]

theorem dec_eq_none_iff_strip (ss : List Symbol) (C : Charset) : dec ss C = none ↔ (strip (buf ss C)).length < 2 := by
  simp only [dec, ite_eq_left_iff, reduceCtorEq, imp_false, not_not]

/-- A buffer whose last 1 is at an index ≥ 1 decodes to the bits before it, from index 1 on (42_decoder.md R88). -/
theorem dec_of_last_one {ss : List Symbol} {C : Charset} {p : List Bool} {k : Nat}
    (h : (buf ss C).drop 1 = p ++ true :: List.replicate k false) : dec ss C = some p := by
  cases hB : buf ss C with
  | nil => simp [hB] at h
  | cons y ys =>
    obtain rfl : ys = p ++ true :: List.replicate k false := by simpa [hB] using h
    have hstrip : strip (buf ss C) = y :: p ++ [true] := by rw [hB]; exact strip_last_one (y :: p) k
    simp [dec, hstrip]

/-- A buffer without a 1 at an index ≥ 1 is stripped to its first bit at most (42_decoder.md R87). -/
theorem dec_of_zeros {ss : List Symbol} {C : Charset} (h : ∀ y ∈ (buf ss C).drop 1, y = false) :
    dec ss C = none := by
  rw [dec_eq_none_iff_strip]
  cases hB : buf ss C with
  | nil => decide
  | cons y ys =>
    rw [hB] at h
    rw [eq_zeros_of_forall (xs := ys) h]
    cases y with
    | false => rw [← List.replicate_succ, strip_zeros]; decide
    | true => rw [← List.nil_append (true :: _), strip_last_one]; decide

theorem dec_eq_none_iff_zeros (ss : List Symbol) (C : Charset) :
    dec ss C = none ↔ ∀ y ∈ (buf ss C).drop 1, y = false := by
  refine ⟨fun hnone => ?_, dec_of_zeros⟩
  obtain hzeros | ⟨p, k, hone⟩ := zeros_or_one ((buf ss C).drop 1)
  · exact hzeros
  · simp [dec_of_last_one hone] at hnone

/-- Settles O42: by the length of the stripped buffer, and by the last 1 of the buffer. -/
theorem decMeaning : Obligations.DecMeaning :=
  fun ss C => ⟨dec_eq_none_iff_strip ss C, dec_eq_none_iff_zeros ss C, fun _ _ => dec_of_last_one⟩

/-! ### The round trip -/

theorem dec_enc {C : Charset} (hvalid : validCharset C.toList = true) (b : List Bool) : dec (enc b C) C = some b :=
  dec_of_last_one (by rw [buf_enc hvalid, drop_one_wrap])

/-- Settles O44: the groups of the wrapped sequence expand to it again, and its last 1 is the trailing sentinel. -/
theorem roundTripLaw : Obligations.RoundTripLaw :=
  fun b _ hvalid => ⟨buf_enc hvalid b, dec_enc hvalid b⟩

/-- Settles O47: the encodings are maps over the same values, and the rest is the round trip of each charset. -/
theorem charsetDependence : Obligations.CharsetDependence :=
  fun _ _ b hvalid hvalid' => ⟨List.map_inj_left, dec_enc hvalid b, dec_enc hvalid' b⟩

/-- One symbol decodes to its bits from index 1 up to the last 1. -/
theorem dec_symbolOf {C : Charset} (hvalid : validCharset C.toList = true) {v : Value} {p : List Bool} {k : Nat}
    (h : (expand v).drop 1 = p ++ true :: List.replicate k false) : dec [symbolOf C v] C = some p :=
  dec_of_last_one (by rw [buf_symbolOf hvalid, h])

/-- Six zeros after an encoding are padding (42_decoder.md R89). -/
theorem dec_enc_append_zero {C : Charset} (hvalid : validCharset C.toList = true) (b : List Bool) :
    dec (enc b C ++ [symbolOf C 0]) C = some b := by
  have hzeros : expand 0 = List.replicate 6 false := rfl
  have hone : 1 ≤ (wrap b).length := by rw [wrap_length]; omega
  apply dec_of_last_one (k := pad b.length + 6)
  rw [buf_append, buf_enc hvalid, buf_symbolOf hvalid, hzeros, List.drop_append_of_le_length hone, drop_one_wrap,
    List.append_assoc, List.cons_append, List.replicate_append_replicate]

/-- Settles O43: the values 1, 33 and 16 by their bits, and a trailing zero symbol by `dec_enc_append_zero`. -/
theorem decAcceptsNonCanonical : Obligations.DecAcceptsNonCanonical :=
  fun _ hvalid => ⟨dec_symbolOf hvalid (k := 0) rfl, dec_symbolOf hvalid (k := 0) rfl, dec_symbolOf hvalid (k := 4) rfl,
    dec_enc_append_zero hvalid⟩

end Sys2Proof.Machine
end

section
/-! SUPPORT. The decoder's commands by the state they start from (42_decoder.md R90 to R94, R97, R99). -/

namespace Sys2Proof.Machine

open Codec

/-- The sticky bits of MALFORMED_INPUT and RUN_OVERFLOW are bits 3 and 4 of `ERRBITS` (60_exceptions.md R105). -/
theorem recordError_malformedInput (s : State) :
    recordError .malformedInput s = { s with errBits := s.errBits ||| 0b01000, lastErr := some .malformedInput } := rfl

theorem recordError_runOverflow (s : State) :
    recordError .runOverflow s = { s with errBits := s.errBits ||| 0b10000, lastErr := some .runOverflow } := rfl

/-! ### DEC_START -/

theorem afterCommand_decStart_of_idle {s : State} (hidle : s.dState = .idle) (hvalid : csValid s = true) :
    afterCommand .decStart s =
      { s with dState := .run, dLead := false, dHas1 := false, dZ := 0, decResult := .none } := by
  simp [afterCommand, hidle, hvalid]

/-- Settles O34: DEC_START is neither refused nor finds the charset invalid. -/
theorem decStartOpens : Obligations.DecStartOpens :=
  fun _ hidle hvalid => exec_eq_next.mpr (afterCommand_decStart_of_idle hidle hvalid)

/-- Settles O35: the command tests `D_STATE` first and `CS_VALID` after it. -/
theorem decStartErrors : Obligations.DecStartErrors := by
  intro s
  rw [← recordError_sequence, ← recordError_invalidCharset]
  refine ⟨fun hopen => exec_eq_next.mpr ?_, fun hidle hinvalid => exec_eq_next.mpr ?_⟩
  · simp [afterCommand, hopen]
  · simp [afterCommand, hidle, hinvalid]

/-! ### DEC_SYM -/

section

variable {s : State} {c : Symbol} {v : Value}

theorem afterCommand_decSym_of_idle (hidle : s.dState = .idle) :
    afterCommand (.decSym c) s = recordError .sequence s := by
  simp [afterCommand, hidle]

theorem afterCommand_decSym_of_fail (hfail : s.dState = .fail) : afterCommand (.decSym c) s = s := by
  simp [afterCommand, hfail]

theorem afterCommand_decSym_of_unknown (hrun : s.dState = .run) (hl : lookup s.cs c = none) :
    afterCommand (.decSym c) s = s := by
  simp [afterCommand, hrun, hl]

theorem afterCommand_decSym_of_fit {f : Feed} (hrun : s.dState = .run) (hl : lookup s.cs c = some v)
    (hf : feedAll s.config.zmax (startFeed s) (expand v) = some f) :
    afterCommand (.decSym c) s = finishFeed f s := by
  simp [afterCommand, hrun, hl, hf]

theorem afterCommand_decSym_of_overflow (hrun : s.dState = .run) (hl : lookup s.cs c = some v)
    (hf : feedAll s.config.zmax (startFeed s) (expand v) = none) :
    afterCommand (.decSym c) s = recordError .runOverflow { s with dState := .fail } := by
  simp [afterCommand, hrun, hl, hf]

end

/-- Settles O36: the cases of DEC_SYM in which it feeds nothing. -/
theorem decSymFeedsNothing : Obligations.DecSymFeedsNothing := by
  intro s c
  rw [← recordError_sequence]
  refine ⟨fun hrun hc => exec_eq_next.mpr ?_, fun hfail => exec_eq_next.mpr ?_, fun hidle => exec_eq_next.mpr ?_⟩
  · exact afterCommand_decSym_of_unknown hrun (lookup_eq_none.mpr hc)
  · exact afterCommand_decSym_of_fail hfail
  · exact afterCommand_decSym_of_idle hidle

/-- Settles O46: the symbol adds nothing to the buffer, and DEC_SYM of it feeds nothing. -/
theorem unknownSymbolTolerated : Obligations.UnknownSymbolTolerated := by
  intro C c ss ss' hc
  refine ⟨buf_unknown hc ss ss', dec_congr (buf_unknown hc ss ss'), ?_⟩
  rintro s rfl hopen
  obtain ⟨hrun, hfail, -⟩ := decSymFeedsNothing s c
  cases hs : s.dState with
  | idle => exact absurd hs hopen
  | run => exact hrun hs hc
  | fail => exact hfail hs

/-! ### Runs of zeros around a symbol -/

/-- A long run needs its length. -/
theorem LongRun.lt_length {zmax : Nat} {B : List Bool} (h : LongRun zmax B) : zmax < B.length := by
  simpa using h.length_le

/-- A sequence is its leading zeros and, where it has a 1, the first 1 and what follows. -/
theorem leading_zeros (xs : List Bool) :
    xs = List.replicate (xs.takeWhile (· == false)).length false ∨
    ∃ ys, xs = List.replicate (xs.takeWhile (· == false)).length false ++ true :: ys := by
  induction xs with
  | nil => exact .inl rfl
  | cons x xs ih =>
    cases x with
    | true => exact .inr ⟨xs, rfl⟩
    | false =>
      obtain hzeros | ⟨ys, hone⟩ := ih
      · exact .inl (congrArg (false :: ·) hzeros)
      · exact .inr ⟨ys, congrArg (false :: ·) hone⟩

/-- Held zeros and the leading zeros after them make a long run when together they pass `ZMAX`. -/
theorem longRun_held_of_lt {zmax z : Nat} {own : List Bool}
    (h : zmax < z + (own.takeWhile (· == false)).length) : LongRun zmax (List.replicate z false ++ own) := by
  have hlong := longRun_zeros.mpr h
  rw [← List.replicate_append_replicate] at hlong
  obtain hown | ⟨ys, hown⟩ := leading_zeros own
  · rwa [hown]
  · rw [hown, ← List.append_assoc]
    exact longRun_append_one.mpr (.inl hlong)

/-- A sequence shorter than a long run completes one with its leading zeros or not at all (42_decoder.md R93). -/
theorem lt_of_longRun_held {zmax z : Nat} {own : List Bool} (hshort : own.length ≤ zmax)
    (h : LongRun zmax (List.replicate z false ++ own)) : zmax < z + (own.takeWhile (· == false)).length := by
  obtain hown | ⟨ys, hown⟩ := leading_zeros own
  · rw [hown, List.replicate_append_replicate] at h
    exact longRun_zeros.mp h
  · rw [hown, ← List.append_assoc, List.replicate_append_replicate, longRun_append_one] at h
    refine longRun_zeros.mp (h.resolve_right fun hys => ?_)
    have hlong := hys.lt_length
    have hlength := congrArg List.length hown
    simp only [List.length_append, List.length_cons] at hlength
    omega

/-- The bits of a symbol at buffer indices ≥ 1 (42_decoder.md R92). -/
def ownBits (s : State) (v : Value) : List Bool := if s.dLead then expand v else (expand v).drop 1

theorem ownBits_length_le (s : State) (v : Value) : (ownBits s v).length ≤ 6 := by
  rw [ownBits]; split <;> simp

/-- The local copies with the leading bit of the message consumed. -/
def ledFeed (s : State) : Feed := { startFeed s with lead := true }

theorem feedAll_ownBits (s : State) (v : Value) :
    feedAll s.config.zmax (startFeed s) (expand v) = feedAll s.config.zmax (ledFeed s) (ownBits s v) :=
  feedAll_startFeed _ s v

theorem ledFeed_held (s : State) :
    (ledFeed s).held = (if s.dHas1 then [true] else []) ++ List.replicate s.dZ false := rfl

/-- Settles O37: the held zeros and the symbol's bits have no long run, and `feedAll_fit` says what feeding them
leaves. -/
theorem decSymFeeds : Obligations.DecSymFeeds := by
  intro s c v own hrun hlegal hl hown hzeros
  obtain rfl : own = ownBits s v := hown
  have hshort := (ownBits_length_le s v).trans hlegal
  have hfit : ¬ LongRun s.config.zmax (List.replicate (ledFeed s).z false ++ ownBits s v) :=
    fun h => absurd (lt_of_longRun_held hshort h) hzeros.not_gt
  obtain ⟨hnone, hone⟩ := feedAll_fit s.config.zmax (ledFeed s) (ownBits s v) rfl hfit
  rw [← feedAll_ownBits] at hnone hone
  refine ⟨fun hall => exec_eq_next.mpr ?_, fun p k hp => exec_eq_next.mpr ?_⟩
  · rw [afterCommand_decSym_of_fit hrun hl (hnone hall)]
    simp [finishFeed, emitD, ledFeed, startFeed]
  · rw [afterCommand_decSym_of_fit hrun hl (hone p k hp), ledFeed_held]
    simp [finishFeed, emitD, ledFeed, startFeed]

/-- Settles O38: the held zeros and the symbol's leading ones are a long run, so the feed overflows. -/
theorem decSymOverflows : Obligations.DecSymOverflows := by
  intro s c v own hrun hz hl hown hzeros
  obtain rfl : own = ownBits s v := hown
  have hover := feedAll_overflow s.config.zmax (ledFeed s) (ownBits s v) rfl hz (longRun_held_of_lt hzeros)
  rw [← feedAll_ownBits] at hover
  rw [exec_eq_next, afterCommand_decSym_of_overflow hrun hl hover, recordError_runOverflow]

/-! ### DEC_END -/

section

variable {s : State}

theorem afterCommand_decEnd_of_ok (hrun : s.dState = .run) (hone : s.dHas1 = true) :
    afterCommand .decEnd s = closeDecoder .ok s := by
  simp [afterCommand, hrun, hone]

theorem afterCommand_decEnd_of_malformed (hrun : s.dState = .run) (hnone : s.dHas1 = false) :
    afterCommand .decEnd s = recordError .malformedInput (closeDecoder .malformed s) := by
  simp [afterCommand, hrun, hnone]

theorem afterCommand_decEnd_of_fail (hfail : s.dState = .fail) :
    afterCommand .decEnd s = closeDecoder .overflow s := by
  simp [afterCommand, hfail]

theorem afterCommand_decEnd_of_idle (hidle : s.dState = .idle) :
    afterCommand .decEnd s = recordError .sequence s := by
  simp [afterCommand, hidle]

end

/-- Settles O39: the four cases of DEC_END. -/
theorem decEndReports : Obligations.DecEndReports := by
  intro s
  rw [← recordError_sequence]
  refine ⟨fun hrun hone => exec_eq_next.mpr ?_, fun hrun hnone => exec_eq_next.mpr ?_,
    fun hfail => exec_eq_next.mpr ?_, fun hidle => exec_eq_next.mpr ?_⟩
  · exact afterCommand_decEnd_of_ok hrun hone
  · exact afterCommand_decEnd_of_malformed hrun hnone
  · exact afterCommand_decEnd_of_fail hfail
  · exact afterCommand_decEnd_of_idle hidle

/-- Settles O48: the empty encoding is one group, and a message without a symbol holds no 1 when it ends. -/
theorem emptyCases : Obligations.EmptyCases := by
  refine ⟨fun C hvalid => ?_, fun s hidle hvalid => ?_⟩
  · have henc : enc [] C = [symbolOf C 48] := rfl
    exact ⟨henc, henc ▸ dec_enc hvalid [], rfl⟩
  · obtain ⟨-, hmalformed, -⟩ := decEndReports
      { s with dState := .run, dLead := false, dHas1 := false, dZ := 0, decResult := .none }
    exact ⟨_, _, decStartOpens s hidle hvalid, hmalformed rfl rfl, rfl, rfl, rfl, rfl⟩

end Sys2Proof.Machine
end

section
/-! SUPPORT. A decode message with and without an overflow, up to its end (42_decoder.md R93, R95). -/

namespace Sys2Proof.Machine

open Codec

theorem buf_fedSymbols_cons (x : HostInput) (mid : List HostInput) (C : Charset) :
    buf (fedSymbols (x :: mid)) C = buf x.fedSymbol.toList C ++ buf (fedSymbols mid) C := by
  rw [← buf_append]
  cases hc : x.fedSymbol <;> simp [fedSymbols, hc]

/-! ### What a run keeps -/

/-- A run over inputs that all keep a property of the block's state keeps it. -/
theorem run_keeps {P : State → Prop} {s : State} {mid rest : List HostInput} (hs : P s)
    (hqueue : ∀ u q, P u → P { u with hostIn := q }) (hkeep : ∀ x ∈ mid, ∀ u, P u → P (afterInput x u))
    (hq : s.hostIn = mid ++ rest) : ∃ u, Machine.run mid.length s = .next u ∧ u.hostIn = rest ∧ P u := by
  induction mid generalizing s with
  | nil => exact ⟨s, run_zero s, hq, hs⟩
  | cons x mid ih =>
    have hnext : P (afterInput x { s with hostIn := mid ++ rest }) :=
      hkeep x (List.mem_cons_self ..) _ (hqueue s _ hs)
    obtain ⟨u, hrun, hrest, hu⟩ :=
      ih hnext (fun y hy => hkeep y (List.mem_cons_of_mem x hy)) (afterInput_hostIn x _)
    exact ⟨u, (run_input hq _).trans hrun, hrest, hu⟩

/-! ### The overflow in the buffer -/

/-- Feeding a buffer overflows exactly when it has a long run after its first bit (42_decoder.md R93). -/
theorem feedAll_isSome_iff {zmax : Nat} {B : List Bool} :
    (feedAll zmax emptyFeed B).isSome ↔ ¬ LongRun zmax (B.drop 1) := by
  refine ⟨fun hsome hlong => ?_, fun hfit => ?_⟩
  · cases B with
    | nil => simpa using hlong.lt_length
    | cons y ys =>
      have hover := feedAll_overflow zmax { emptyFeed with lead := true } ys rfl (Nat.zero_le zmax) hlong
      rw [feedAll_lead zmax emptyFeed y ys rfl, hover] at hsome
      cases hsome
  · obtain ⟨f, hf, -⟩ := feedAll_buffer hfit
    exact Option.isSome_of_eq_some hf

/-- `ZMAX` zeros still fit after the last 1 of a sequence without a long run. -/
theorem not_longRun_append_zeros {zmax : Nat} {p : List Bool} (hp : ¬ LongRun zmax p)
    (hlast : ∀ y ∈ p.getLast?, y = true) : ¬ LongRun zmax (p ++ List.replicate zmax false) := by
  obtain rfl | ⟨p, y, rfl⟩ := List.eq_nil_or_concat p
  · exact fun h => (longRun_zeros.mp h).false
  · obtain rfl : y = true := by simpa using hlast
    rw [List.concat_eq_append, longRun_append_one] at hp
    rw [List.concat_eq_append, List.append_assoc, List.singleton_append, longRun_append_one, longRun_zeros]
    simpa using fun h => hp (.inl h)

/-- The symbol that overflows is shorter than a long run, so the 1s before the run are in the symbols before it: `Y` are
their bits, `p` those up to the last 1 before the run. -/
theorem eq_append_zeros_of_overflow {zmax : Nat} {Y w p q : List Bool} (hshort : w.length ≤ zmax)
    (hY : ¬ LongRun zmax Y) (hover : LongRun zmax (Y ++ w))
    (hpre : Y ++ w <+: p ++ List.replicate (zmax + 1) false ++ q)
    (hp : ¬ LongRun zmax p) (hlast : ∀ y ∈ p.getLast?, y = true) : ∃ j, Y = p ++ List.replicate j false := by
  have hfits : p ++ List.replicate zmax false <+: p ++ List.replicate (zmax + 1) false ++ q :=
    ⟨false :: q, by simp [List.replicate_succ']⟩
  have hruns : p ++ List.replicate (zmax + 1) false <+: p ++ List.replicate (zmax + 1) false ++ q :=
    List.prefix_append _ _
  have hYpre := (List.prefix_append Y w).trans hpre
  have hlong : ¬ Y ++ w <+: p ++ List.replicate zmax false := fun h =>
    not_longRun_append_zeros hp hlast (hover.trans h.isInfix)
  have hlower : p.length ≤ Y.length := by
    by_contra hlt
    refine hlong (List.prefix_of_prefix_length_le hpre hfits ?_)
    simp only [List.length_append, List.length_replicate]
    omega
  have hupper : Y.length ≤ p.length + zmax := by
    by_contra hlt
    refine hY (List.IsInfix.trans ?_ (List.prefix_of_prefix_length_le hruns hYpre ?_).isInfix)
    · exact (List.suffix_append _ _).isInfix
    · simp only [List.length_append, List.length_replicate]
      omega
  have hY' : Y <+: p ++ List.replicate zmax false :=
    List.prefix_of_prefix_length_le hYpre hfits (by simpa using hupper)
  obtain ⟨z, rfl⟩ := List.prefix_of_prefix_length_le ((List.prefix_append p _).trans hfits) hYpre hlower
  have hz := (List.prefix_append_right_inj p).mp hY'
  exact ⟨z.length, congrArg (p ++ ·) (eq_zeros_of_forall fun y hy => List.eq_of_mem_replicate (hz.subset hy))⟩

/-- What the symbols before the overflow have emitted (42_decoder.md R93): the bits before the last 1 before the run. -/
theorem out_of_overflow {zmax : Nat} {B₀ B₁ p q : List Bool} {v : Value} {f : Feed} (hlegal : 6 ≤ zmax)
    (hf : feedAll zmax emptyFeed B₀ = some f) (hover : feedAll zmax emptyFeed (B₀ ++ expand v) = none)
    (hB : (B₀ ++ expand v ++ B₁).drop 1 = p ++ List.replicate (zmax + 1) false ++ q)
    (hp : ¬ LongRun zmax p) (hlast : ∀ y ∈ p.getLast?, y = true) : f.out = p.dropLast := by
  have hfit : ¬ LongRun zmax (B₀.drop 1) := feedAll_isSome_iff.mp (Option.isSome_of_eq_some hf)
  have hlong : LongRun zmax ((B₀ ++ expand v).drop 1) := by
    by_contra h
    simpa [hover] using feedAll_isSome_iff.mpr h
  cases B₀ with
  | nil =>
    have hlt : zmax < 5 := hlong.lt_length
    omega
  | cons y Y =>
    obtain ⟨j, rfl⟩ : ∃ j, Y = p ++ List.replicate j false :=
      eq_append_zeros_of_overflow (w := expand v) hlegal hfit hlong ⟨B₁, hB⟩ hp hlast
    obtain ⟨g, hg, -, hzeros, hone⟩ := feedAll_buffer hfit
    obtain rfl : f = g := Option.some.inj (hf.symm.trans hg)
    obtain rfl | ⟨p, y, rfl⟩ := List.eq_nil_or_concat p
    · exact (hzeros fun y hy => List.eq_of_mem_replicate hy).2.2
    · obtain rfl : y = true := by simpa using hlast
      obtain ⟨-, -, hout⟩ := hone p j (by simp)
      simpa using hout

/-! ### A message that overflows -/

/-- The decoder has failed in a message opened in the state `s` with the buffer `B`: the symbols before the one that
overflowed are fed and have emitted their bits (42_decoder.md R93). -/
structure Failed (s : State) (B : List Bool) (t : State) : Prop where
  failed : t.dState = .fail
  fed : ∃ (B₀ B₁ : List Bool) (v : Value) (f : Feed), B = B₀ ++ expand v ++ B₁ ∧
    feedAll s.config.zmax emptyFeed B₀ = some f ∧ feedAll s.config.zmax emptyFeed (B₀ ++ expand v) = none ∧
    t.dout = s.dout ++ f.out

/-- FAIL is left by DEC_END and reset only, and nothing is emitted in it (42_decoder.md R93). -/
theorem Effect.fail_kept {x : HostInput} {s t : State} (h : Effect x s t) (hfail : s.dState = .fail)
    (hx : x.StaysInDecode) : t.dState = .fail ∧ t.dout = s.dout := by
  obtain ⟨hreset, hend⟩ := hx
  cases h with
  | reset hr => exact absurd hr hreset
  | decodeOpened _ hidle => simp [hfail] at hidle
  | fed _ _ _ _ hrun => simp [hfail] at hrun
  | overflowed _ _ _ hrun => simp [hfail] at hrun
  | decodeOk hi => exact absurd hi hend
  | decodeMalformed hi => exact absurd hi hend
  | decodeOverflow hi => exact absurd hi hend
  | _ => simp [hfail]

/-- A run over inputs that leave the message open leaves the decoder in FAIL; the buffer grows by what is ignored. -/
theorem Failed.run {s t : State} {B : List Bool} {mid rest : List HostInput} (h : Failed s B t) (B' : List Bool)
    (hmid : ∀ x ∈ mid, x.StaysInDecode) (hq : t.hostIn = mid ++ rest) :
    ∃ u, Machine.run mid.length t = .next u ∧ u.hostIn = rest ∧ Failed s (B ++ B') u := by
  obtain ⟨hfailed, B₀, B₁, v, f, rfl, hf, hover, hdout⟩ := h
  obtain ⟨u, hrun, hrest, hu, hout⟩ := run_keeps (P := fun u => u.dState = .fail ∧ u.dout = t.dout) ⟨hfailed, rfl⟩
    (fun _ _ h => h)
    (fun x hx u hu => ((effect_afterInput x u).fail_kept hu.1 (hmid x hx)).imp_right (·.trans hu.2)) hq
  exact ⟨u, hrun, hrest, hu, B₀, B₁ ++ B', v, f, List.append_assoc .., hf, hover, hout.trans hdout⟩

/-- A symbol that overflows moves the decoder to FAIL and emits nothing (42_decoder.md R93). -/
theorem Decoding.afterInput_overflow {s t : State} {B : List Bool} {x : HostInput} (h : Decoding s B t)
    (hover : feedAll s.config.zmax emptyFeed (B ++ buf x.fedSymbol.toList s.cs) = none) :
    Failed s (B ++ buf x.fedSymbol.toList s.cs) (Machine.afterInput x t) := by
  obtain ⟨hrunning, htable, hparameter, out, hfed, hdout⟩ := h
  obtain ⟨c, v, hc, hl⟩ : ∃ c v, x.fedSymbol = some c ∧ lookup s.cs c = some v := by
    by_contra hno
    have hnil : buf x.fedSymbol.toList s.cs = [] := by
      cases hc : x.fedSymbol with
      | none => rfl
      | some c => cases hl : lookup s.cs c <;> simp_all [buf]
    simp [hnil, hfed] at hover
  have hbits : buf x.fedSymbol.toList s.cs = expand v := by simp [hc, buf, hl]
  rw [hbits] at hover ⊢
  have hnone : feedAll t.config.zmax (startFeed t) (expand v) = none := by
    rw [feedAll_append, hfed, Option.bind_some, feedAll_emittedAfter, Option.map_eq_none_iff] at hover
    rw [hparameter, hover]
  rw [afterInput_of_instr (instr_of_fedSymbol hc), afterCommand_decSym_of_overflow hrunning (htable ▸ hl) hnone]
  refine ⟨rfl, B, [], v, _, (List.append_nil _).symm, hfed, hover, ?_⟩
  simp [hdout, Feed.emittedAfter, startFeed]

/-- A run over inputs that leave the message open fails when the whole buffer does not fit. -/
theorem Decoding.run_overflow {s t : State} {B : List Bool} {mid rest : List HostInput} (h : Decoding s B t)
    (hmid : ∀ x ∈ mid, x.StaysInDecode) (hq : t.hostIn = mid ++ rest)
    (hover : feedAll s.config.zmax emptyFeed (B ++ buf (fedSymbols mid) s.cs) = none) :
    ∃ u, Machine.run mid.length t = .next u ∧ u.hostIn = rest ∧ Failed s (B ++ buf (fedSymbols mid) s.cs) u := by
  induction mid generalizing t B with
  | nil =>
    obtain ⟨-, -, -, out, hfed, -⟩ := h
    simp [fedSymbols, buf, hfed] at hover
  | cons x mid ih =>
    rw [buf_fedSymbols_cons, ← List.append_assoc] at hover ⊢
    have hx := hmid x (List.mem_cons_self ..)
    have hrest : ∀ y ∈ mid, y.StaysInDecode := fun y hy => hmid y (List.mem_cons_of_mem x hy)
    have hqueue := h.of_queue (mid ++ rest)
    cases hfirst : feedAll s.config.zmax emptyFeed (B ++ buf x.fedSymbol.toList s.cs) with
    | none =>
      obtain ⟨u, hrun, hu⟩ := (hqueue.afterInput_overflow hfirst).run (buf (fedSymbols mid) s.cs) hrest
        (afterInput_hostIn x _)
      exact ⟨u, (run_input hq _).trans hrun, hu⟩
    | some f =>
      obtain ⟨u, hrun, hu⟩ := ih (hqueue.afterInput hx (Option.isSome_of_eq_some hfirst)) hrest
        (afterInput_hostIn x _) hover
      exact ⟨u, (run_input hq _).trans hrun, hu⟩

/-- A message with a long run after the buffer's first bit is in FAIL before its DEC_END (42_decoder.md R93). -/
theorem failed_of_message {s : State} {mid rest : List HostInput} (hidle : s.dState = .idle)
    (hvalid : csValid s = true) (hmid : ∀ x ∈ mid, x.StaysInDecode)
    (hq : s.hostIn = present .decStart :: (mid ++ rest))
    (hlong : LongRun s.config.zmax ((buf (fedSymbols mid) s.cs).drop 1)) :
    ∃ u, Machine.run (mid.length + 1) s = .next u ∧ u.hostIn = rest ∧ Failed s (buf (fedSymbols mid) s.cs) u := by
  have hover : feedAll s.config.zmax emptyFeed (buf (fedSymbols mid) s.cs) = none := by
    rw [← Option.not_isSome_iff_eq_none, feedAll_isSome_iff, not_not]
    exact hlong
  have hopen := decoding_of_decStart (s := { s with hostIn := mid ++ rest }) hidle hvalid
  obtain ⟨u, hrun, hrest, hu⟩ := hopen.run_overflow hmid (afterInput_hostIn _ _) hover
  exact ⟨u, (run_input hq _).trans hrun, hrest, hu.failed, hu.fed⟩

/-! ### The end of a message -/

theorem afterInput_present (i : Instr) (s : State) : afterInput (present i) s = afterCommand i s :=
  afterInput_of_instr (instr_present i) s

theorem afterCommand_hostIn (i : Instr) (s : State) : (afterCommand i s).hostIn = s.hostIn :=
  afterInput_present i s ▸ afterInput_hostIn (present i) s

/-- The run up to a command, and then the command. -/
theorem run_then_command {s u : State} {n : Nat} {i : Instr} {rest : List HostInput}
    (h : Machine.run n s = .next u) (hq : u.hostIn = present i :: rest) :
    Machine.run (n + 1) s = .next (afterCommand i { u with hostIn := rest }) :=
  (run_then_input h hq).trans (congrArg _ (afterInput_present i _))

/-- DEC_END leaves the decoder idle, whatever it reports (42_decoder.md R94). -/
theorem afterCommand_decEnd_dState (s : State) : (afterCommand .decEnd s).dState = .idle := by
  cases hs : s.dState with
  | idle => rw [afterCommand_decEnd_of_idle hs, recordError_dState, hs]
  | fail => rw [afterCommand_decEnd_of_fail hs, closeDecoder_dState]
  | run =>
    cases hone : s.dHas1 with
    | true => rw [afterCommand_decEnd_of_ok hs hone, closeDecoder_dState]
    | false => rw [afterCommand_decEnd_of_malformed hs hone, recordError_dState, closeDecoder_dState]

/-- Settles O41: a message that fits by `decoderProgress` and the meaning of `Dec`, one that overflows by
`failed_of_message`. -/
theorem decoderMessageResult : Obligations.DecoderMessageResult := by
  rintro s mid rest B hlegal hidle hvalid hmid hq rfl
  by_cases hlong : LongRun s.config.zmax ((buf (fedSymbols mid) s.cs).drop 1)
  · obtain ⟨u, hrun, hrest, hfailed, B₀, B₁, v, f, hB, hf, hover, hdout⟩ :=
      failed_of_message hidle hvalid hmid hq hlong
    refine ⟨u, _, hrun, run_then_command hrun hrest, afterCommand_hostIn _ _, afterCommand_decEnd_dState _,
      fun hno => absurd hlong hno, fun p q hpq hp hlast => ?_⟩
    rw [hB] at hpq
    rw [afterCommand_decEnd_of_fail (s := { u with hostIn := rest }) hfailed,
      ← out_of_overflow hlegal hf hover hpq hp hlast]
    exact ⟨hfailed, rfl, hdout, rfl, rfl⟩
  · obtain ⟨u, hrun, hrest, hrunning, -, hzeros, hone⟩ :=
      decoderProgress s mid _ _ hlegal hidle hvalid hmid hq rfl hlong
    refine ⟨u, _, hrun, run_then_command hrun hrest, afterCommand_hostIn _ _, afterCommand_decEnd_dState _,
      fun _ => ⟨fun d hd => ?_, fun hnone => ?_⟩, fun p q hpq => absurd ⟨p, q, hpq.symm⟩ hlong⟩
    · obtain hall | ⟨p, k, hp⟩ := zeros_or_one ((buf (fedSymbols mid) s.cs).drop 1)
      · rw [dec_of_zeros hall] at hd
        cases hd
      · obtain rfl : p = d := Option.some.inj ((dec_of_last_one hp).symm.trans hd)
        obtain ⟨hhas1, -, hdout⟩ := hone p k hp
        rw [afterCommand_decEnd_of_ok (s := { u with hostIn := rest }) hrunning hhas1]
        exact ⟨rfl, hdout, rfl, rfl⟩
    · obtain ⟨hhas1, -, hdout⟩ := hzeros ((dec_eq_none_iff_zeros _ _).mp hnone)
      rw [afterCommand_decEnd_of_malformed (s := { u with hostIn := rest }) hrunning hhas1]
      exact ⟨rfl, hdout, rfl, rfl⟩

end Sys2Proof.Machine
end

section
/-! SUPPORT. The round trip on the block (42_decoder.md R96): an encode message and a decode message of what it
emitted. -/

namespace Sys2Proof.Machine

open Codec

/-! ### The bits and the symbols of a message's commands -/

/-- The inputs that present the bits of a message (30_encoding.md R59). -/
def bitInputs (b : List Bool) : List HostInput := b.map fun y => present (.encBit y)

/-- The inputs that present the symbols of a message (30_encoding.md R59). -/
def symbolInputs (cs : List Symbol) : List HostInput := cs.map fun c => present (.decSym c)

theorem encode_inputs (b : List Bool) (rest : List HostInput) :
    (Instr.encStart :: b.map Instr.encBit ++ [Instr.encEnd]).map present ++ rest =
      present .encStart :: (bitInputs b ++ present .encEnd :: rest) := by
  simp [bitInputs, Function.comp_def]

theorem decode_inputs (cs : List Symbol) (rest : List HostInput) :
    (Instr.decStart :: cs.map Instr.decSym ++ [Instr.decEnd]).map present ++ rest =
      present .decStart :: (symbolInputs cs ++ present .decEnd :: rest) := by
  simp [symbolInputs, Function.comp_def]

@[simp] theorem bitInputs_length (b : List Bool) : (bitInputs b).length = b.length := List.length_map _

@[simp] theorem symbolInputs_length (cs : List Symbol) : (symbolInputs cs).length = cs.length := List.length_map _

theorem bitInputs_stay (b : List Bool) : ∀ x ∈ bitInputs b, x.StaysInEncode :=
  List.forall_mem_map.mpr fun _ _ => ⟨present_ne_reset _, by simp⟩

theorem symbolInputs_stay (cs : List Symbol) : ∀ x ∈ symbolInputs cs, x.StaysInDecode :=
  List.forall_mem_map.mpr fun _ _ => ⟨present_ne_reset _, by simp⟩

@[simp] theorem fedBits_bitInputs (b : List Bool) : fedBits (bitInputs b) = b := by
  have hfed : HostInput.fedBit ∘ (fun y => present (.encBit y)) = some :=
    funext fun y => fedBit_of_instr (instr_present _)
  rw [fedBits, bitInputs, List.filterMap_map, hfed, List.filterMap_some]

@[simp] theorem fedSymbols_symbolInputs (cs : List Symbol) : fedSymbols (symbolInputs cs) = cs := by
  have hfed : HostInput.fedSymbol ∘ (fun c => present (.decSym c)) = some :=
    funext fun c => fedSymbol_of_instr (instr_present _)
  rw [fedSymbols, symbolInputs, List.filterMap_map, hfed, List.filterMap_some]

/-! ### The encode message -/

/-- Outside the encoder the state `t` is as the state `s` was: the decoder and the charset, DO, and the error record
(20_memory.md R47). -/
structure SameOutsideEncoder (s t : State) : Prop where
  part : decoderPart t = decoderPart s
  dout : t.dout = s.dout
  errBits : t.errBits = s.errBits
  lastErr : t.lastErr = s.lastErr

theorem SameOutsideEncoder.trans {s t u : State} (h : SameOutsideEncoder s t) (h' : SameOutsideEncoder t u) :
    SameOutsideEncoder s u :=
  ⟨h'.part.trans h.part, h'.dout.trans h.dout, h'.errBits.trans h.errBits, h'.lastErr.trans h.lastErr⟩

theorem sameOutsideEncoder_push (b : Bool) (s : State) : SameOutsideEncoder s (push b s) :=
  ⟨by simp [decoderPart], push_dout b s, push_errBits b s, push_lastErr b s⟩

theorem sameOutsideEncoder_encStart {s : State} (hidle : s.eBusy = false) (hvalid : csValid s = true)
    (q : List HostInput) : (afterCommand .encStart { s with hostIn := q }).eBusy = true ∧
      SameOutsideEncoder s (afterCommand .encStart { s with hostIn := q }) := by
  rw [afterCommand_encStart_of_idle (s := { s with hostIn := q }) hidle hvalid]
  exact ⟨rfl, rfl, rfl, rfl, rfl⟩

theorem sameOutsideEncoder_encBit {s t : State} (h : t.eBusy = true ∧ SameOutsideEncoder s t) (b : Bool) :
    (afterCommand (.encBit b) t).eBusy = true ∧ SameOutsideEncoder s (afterCommand (.encBit b) t) := by
  obtain ⟨hbusy, hsame⟩ := h
  rw [exec_eq_next.mp (exec_encBit_of_open b hbusy)]
  exact ⟨(push_eBusy b t).trans hbusy, hsame.trans (sameOutsideEncoder_push b t)⟩

/-- ENC_START and the ENC_BIT commands of a message change nothing outside the encoder (20_memory.md R47). -/
theorem run_encode_frame {s : State} {b : List Bool} {rest : List HostInput} (hidle : s.eBusy = false)
    (hvalid : csValid s = true) (hq : s.hostIn = present .encStart :: (bitInputs b ++ rest)) :
    ∃ u, Machine.run ((bitInputs b).length + 1) s = .next u ∧ SameOutsideEncoder s u := by
  have hopen := sameOutsideEncoder_encStart hidle hvalid (bitInputs b ++ rest)
  have hbits : ∀ x ∈ bitInputs b, ∀ u, u.eBusy = true ∧ SameOutsideEncoder s u →
      (afterInput x u).eBusy = true ∧ SameOutsideEncoder s (afterInput x u) :=
    List.forall_mem_map.mpr fun y _ u hu => (afterInput_present _ u).symm ▸ sameOutsideEncoder_encBit hu y
  rw [← afterInput_present] at hopen
  obtain ⟨u, hrun, -, -, hsame⟩ := run_keeps (P := fun u => u.eBusy = true ∧ SameOutsideEncoder s u) hopen
    (fun _ _ ⟨hbusy, hpart, hdout, hbits, hlast⟩ => ⟨hbusy, hpart, hdout, hbits, hlast⟩) hbits (afterInput_hostIn _ _)
  exact ⟨u, (run_input hq _).trans hrun, hsame⟩

/-- An encode message of ENC_BIT commands emits the values of the encoding and changes nothing outside the encoder
(41_encoder.md R80, 20_memory.md R47). -/
theorem run_encode_message {s : State} {b : List Bool} {rest : List HostInput} (hidle : s.eBusy = false)
    (hvalid : csValid s = true)
    (hq : s.hostIn = present .encStart :: (bitInputs b ++ present .encEnd :: rest)) :
    ∃ t, Machine.run (b.length + 2) s = .next t ∧ t.hostIn = rest ∧
      t.eo = s.eo ++ (values b).map (fun v => ⟨v, symbolOf s.cs v⟩) ∧ SameOutsideEncoder s t := by
  obtain ⟨u, hrun, hrest, hu⟩ := encoding_of_message hidle hvalid (bitInputs_stay b) hq
  obtain ⟨u', hrun', hsame⟩ := run_encode_frame hidle hvalid hq
  obtain rfl : u = u' := Host.Outcome.next.inj (hrun.symm.trans hrun')
  rw [bitInputs_length] at hrun
  have hend := exec_eq_next.mp (exec_encEnd_of_open (hu.of_queue rest).busy)
  obtain ⟨-, heo⟩ := (hu.of_queue rest).closed
  rw [fedBits_bitInputs, afterInput_present] at heo
  refine ⟨_, run_then_command hrun hrest, afterCommand_hostIn _ _, heo, ?_⟩
  rw [hend]
  exact hsame.trans ⟨rfl, rfl, rfl, rfl⟩

/-! ### The decode message -/

/-- In a decode message opened in the state `s`, with DEC_SYM commands only: EO is left alone, and the error record is
left alone unless a symbol has overflowed (42_decoder.md R92, R93). -/
structure RecordKept (s t : State) : Prop where
  eo : t.eo = s.eo
  record : t.dState = .fail ∨ t.dState = .run ∧ t.errBits = s.errBits ∧ t.lastErr = s.lastErr

theorem RecordKept.decSym {s t : State} (h : RecordKept s t) (c : Symbol) :
    RecordKept s (afterCommand (.decSym c) t) := by
  obtain ⟨heo, hfail | ⟨hrun, hbits, hlast⟩⟩ := h
  · rw [afterCommand_decSym_of_fail hfail]
    exact ⟨heo, .inl hfail⟩
  · cases hl : lookup t.cs c with
    | none =>
      rw [afterCommand_decSym_of_unknown hrun hl]
      exact ⟨heo, .inr ⟨hrun, hbits, hlast⟩⟩
    | some v =>
      cases hf : feedAll t.config.zmax (startFeed t) (expand v) with
      | none =>
        rw [afterCommand_decSym_of_overflow hrun hl hf]
        exact ⟨heo, .inl rfl⟩
      | some f =>
        rw [afterCommand_decSym_of_fit hrun hl hf]
        exact ⟨heo, .inr ⟨hrun, hbits, hlast⟩⟩

theorem recordKept_decStart {s : State} (hidle : s.dState = .idle) (hvalid : csValid s = true) (q : List HostInput) :
    RecordKept s (afterCommand .decStart { s with hostIn := q }) := by
  rw [afterCommand_decStart_of_idle (s := { s with hostIn := q }) hidle hvalid]
  exact ⟨rfl, .inr ⟨rfl, rfl, rfl⟩⟩

/-- DEC_START and the DEC_SYM commands of a message leave EO alone, and the error record when no symbol overflows. -/
theorem run_decode_frame {s : State} {cs : List Symbol} {rest : List HostInput} (hidle : s.dState = .idle)
    (hvalid : csValid s = true) (hq : s.hostIn = present .decStart :: (symbolInputs cs ++ rest)) :
    ∃ u, Machine.run ((symbolInputs cs).length + 1) s = .next u ∧ RecordKept s u := by
  have hopen := recordKept_decStart hidle hvalid (symbolInputs cs ++ rest)
  have hsymbols : ∀ x ∈ symbolInputs cs, ∀ u, RecordKept s u → RecordKept s (afterInput x u) :=
    List.forall_mem_map.mpr fun c _ u hu => (afterInput_present _ u).symm ▸ hu.decSym c
  rw [← afterInput_present] at hopen
  obtain ⟨u, hrun, -, hkept⟩ := run_keeps hopen (fun _ _ ⟨heo, hrecord⟩ => ⟨heo, hrecord⟩) hsymbols
    (afterInput_hostIn _ _)
  exact ⟨u, (run_input hq _).trans hrun, hkept⟩

/-- A decode message of the encoding of `b` emits `b` and ends OK without an error (42_decoder.md R95, R96): its buffer
is the wrapped sequence, whose runs of zeros are those of `b` and the padding. -/
theorem run_decode_message {s : State} {b : List Bool} {rest : List HostInput} (hlegal : s.config.Legal)
    (hidle : s.dState = .idle) (hvalid : csValid s = true) (hfit : ¬ LongRun s.config.zmax b)
    (hq : s.hostIn = present .decStart :: (symbolInputs (enc b s.cs) ++ present .decEnd :: rest)) :
    ∃ t, Machine.run ((enc b s.cs).length + 2) s = .next t ∧ t.hostIn = rest ∧ t.eo = s.eo ∧
      t.decResult = .ok ∧ t.dout = s.dout ++ b ∧ t.errBits = s.errBits ∧ t.lastErr = s.lastErr := by
  have hcharset : validCharset s.cs.toList = true := (validCharset_toList_iff s.cs).mpr ((csValid_iff s).mp hvalid).2
  have hbuf : buf (fedSymbols (symbolInputs (enc b s.cs))) s.cs = wrap b := by
    rw [fedSymbols_symbolInputs, buf_enc hcharset]
  have hlong : ¬ LongRun s.config.zmax ((wrap b).drop 1) := by
    have hpad := pad_le_five b.length
    rw [drop_one_wrap, longRun_append_one, longRun_zeros, or_iff_left (by omega)]
    exact hfit
  obtain ⟨u, hrun, hrest, hrunning, -, -, hone⟩ :=
    decoderProgress s _ _ (wrap b) hlegal hidle hvalid (symbolInputs_stay _) hq hbuf.symm hlong
  obtain ⟨hhas1, -, hdout⟩ := hone b _ (drop_one_wrap b)
  obtain ⟨u', hrun', heo, hrecord⟩ := run_decode_frame hidle hvalid hq
  obtain rfl : u = u' := Host.Outcome.next.inj (hrun.symm.trans hrun')
  rw [symbolInputs_length] at hrun
  obtain ⟨-, hbits, hlast⟩ := hrecord.resolve_left (by simp [hrunning])
  refine ⟨_, run_then_command hrun hrest, afterCommand_hostIn _ _, ?_⟩
  rw [afterCommand_decEnd_of_ok (s := { u with hostIn := rest }) hrunning hhas1]
  exact ⟨heo, rfl, hdout, hbits, hlast⟩

/-- Settles O45: the encode message leaves the decoder and the charset as they are, and the decode message decodes the
symbols of the items it emitted. -/
theorem blockRoundTrip : Obligations.BlockRoundTrip := by
  intro s b rest hlegal hbusy hidle hvalid hfit hq
  rw [encode_inputs, decode_inputs] at hq
  obtain ⟨t, hrun, hrest, heo, hsame⟩ := run_encode_message hbusy hvalid hq
  obtain ⟨hconfig, hcs, -, hstate, -⟩ := decoderPart_eq_iff.mp hsame.part
  have hvalid' : csValid t = true := by rw [← csValid_decoderPart, hsame.part, csValid_decoderPart, hvalid]
  have hsymbols : (t.eo.drop s.eo.length).map EoItem.symbol = enc b s.cs := by
    rw [heo, List.drop_left, List.map_map]
    rfl
  rw [← hconfig] at hlegal hfit
  rw [← hcs] at hrest hsymbols ⊢
  obtain ⟨t', hrun', hrest', heo', hresult, hdout, hbits, hlast⟩ :=
    run_decode_message hlegal (hstate.trans hidle) hvalid' hfit hrest
  refine ⟨t', ?_, hrest', heo' ▸ hsymbols, hresult, hsame.dout ▸ hdout, hbits.trans hsame.errBits,
    hlast.trans hsame.lastErr⟩
  have hcount : b.length + (enc b t.cs).length + 4 = (b.length + 2) + ((enc b t.cs).length + 2) := by omega
  rw [hcount]
  exact (core_run_add hrun _).trans hrun'

end Sys2Proof.Machine
end

section
/-! SUPPORT. The control commands NOP and ERR_CLEAR (43_control.md R100, R101). -/

namespace Sys2Proof.Machine

/-- Settles O50: the next state of NOP, as `exec_eq` names it, is the state itself. -/
theorem nopChangesNothing : Obligations.NopChangesNothing := exec_eq .nop

/-- Settles O51: the next state of ERR_CLEAR, as `exec_eq` names it, is the acknowledgement, which clears the error
record alone. -/
theorem errClearAcknowledges : Obligations.ErrClearAcknowledges := exec_eq .errClear

end Sys2Proof.Machine
end

section
/-! SUPPORT. The error codes and their sticky bits, and the totality of the step (60_exceptions.md R105, R106). -/

namespace Sys2Proof.Machine

theorem ErrorCause.code_range (e : ErrorCause) : 1 ≤ e.code.toNat ∧ e.code.toNat ≤ 5 := by cases e <;> decide

/-- The sticky bit of the code `c` is bit `c − 1` of `ERRBITS`, and no other. -/
theorem ErrorCause.sticky_getLsbD (e : ErrorCause) (k : Nat) :
    e.sticky.getLsbD k = decide (k + 1 = e.code.toNat) := by
  obtain ⟨hpos, hle⟩ := e.code_range
  have hbit : e.sticky = BitVec.twoPow 5 (e.code.toNat - 1) := (BitVec.twoPow_eq _ _).symm
  rw [hbit, BitVec.getLsbD_twoPow, ← Bool.decide_and, decide_eq_decide]
  omega

/-- Settles O15: the codes and the bits row by row, `LAST_ERR` by its definition, and bit `code − 1` by
`ErrorCause.sticky_getLsbD`. -/
theorem errorCodeSticky : Obligations.ErrorCodeSticky :=
  ⟨⟨rfl, rfl, rfl, rfl, rfl⟩, ⟨rfl, fun _ => rfl⟩, by decide, ErrorCause.sticky_getLsbD⟩

/-- Settles O12: with nothing presented the state is its own next state, and otherwise the next state is that of the
oldest input, whose effect leaves the rest of the queue and the parameter alone. -/
theorem blockNeverStops : Obligations.BlockNeverStops := by
  intro s
  cases hq : s.hostIn with
  | nil => exact ⟨s, step_empty hq, hq, rfl⟩
  | cons x rest =>
    have heffect := effect_afterInput x { s with hostIn := rest }
    exact ⟨_, step_input hq, heffect.hostIn, heffect.config⟩

end Sys2Proof.Machine
end

section
/-! SUPPORT. Reset and the bounds of one step (70_reset_and_hazards.md R115, R116, R119). -/

namespace Sys2Proof.Machine

/-! ### Reset -/

/-- With no entry written the charset is not valid, whatever the entries are (10_state.md R23, R24). -/
theorem csValid_eq_false_of_csw {s : State} (hcsw : s.csw = 0) : csValid s = false :=
  (csValid_congr (t := s) (s := clearMask s) rfl hcsw).trans (csValid_clearMask s)

/-- STATUS reads 0 when nothing is written, open, recorded or reported (10_state.md R33). -/
theorem status_eq_zero {s : State} (hcsw : s.csw = 0) (hbusy : s.eBusy = false) (hidle : s.dState = .idle)
    (hbits : s.errBits = 0) (hlast : s.lastErr = none) (hresult : s.decResult = .none) : status s = 0 := by
  rw [status, csValid_eq_false_of_csw hcsw, hbusy, hidle, hbits, hlast, hresult]
  rfl

/-- Settles O10: the values are those of `State.reset`, and `CS_VALID` and STATUS follow from them. -/
theorem resetStateValues : Obligations.ResetStateValues :=
  ⟨rfl, csValid_eq_false_of_csw rfl, rfl, rfl, rfl, rfl, rfl, rfl, rfl, rfl, rfl, rfl,
    status_eq_zero rfl rfl rfl rfl rfl rfl⟩

/-- Settles O11: the next state is that of `assertReset`, which leaves both streams alone. -/
theorem resetInputAbandons : Obligations.ResetInputAbandons :=
  fun _ _ hq => ⟨_, step_reset hq, rfl, csValid_eq_false_of_csw rfl, rfl, rfl, rfl, rfl, rfl, rfl, rfl, rfl, rfl, rfl,
    status_eq_zero rfl rfl rfl rfl rfl rfl, assertReset_eo _, assertReset_dout _⟩

theorem reference_legal : Config.reference.Legal := by decide

/-- Settles O59: the registers are 0, no message is open, and no error is recorded. -/
theorem invAtReset : Obligations.InvAtReset := by
  have hencoder : EncoderInv State.reset := ⟨Nat.zero_lt_one, fun _ => ⟨rfl, rfl⟩⟩
  have hdecoder : DecoderInv State.reset :=
    ⟨fun _ => ⟨rfl, rfl, rfl⟩, fun _ => ⟨rfl, rfl⟩, Nat.zero_le _, absurd rfl⟩
  have hcharset : CharsetInv State.reset := nofun
  have herror : ErrorInv State.reset := ⟨iff_of_true rfl rfl, nofun⟩
  exact ⟨reference_legal, hencoder, hdecoder, hcharset, herror⟩

/-! ### The output of one step -/

/-- Feeding emits at most the zeros held before and as many bits as are fed: a held 1 may be released as well, but only
by a last 1 that is itself held back (42_decoder.md R91). -/
theorem feedAll_out_length_le {zmax : Nat} {f f' : Feed} {xs : List Bool} (hl : f.lead = true) (hz : f.z ≤ zmax)
    (h : feedAll zmax f xs = some f') : f'.out.length ≤ f.out.length + f.z + xs.length := by
  have hfit : ¬ LongRun zmax (List.replicate f.z false ++ xs) := fun hlong => by
    simp [feedAll_overflow zmax f xs hl hz hlong] at h
  obtain ⟨hzeros, hone⟩ := feedAll_fit zmax f xs hl hfit
  obtain hall | ⟨p, k, hp⟩ := zeros_or_one xs
  · obtain rfl := Option.some.inj ((hzeros hall).symm.trans h)
    exact Nat.le_add_right_of_le (Nat.le_add_right _ _)
  · obtain rfl := Option.some.inj ((hone p k hp).symm.trans h)
    have hheld : f.held.length ≤ 1 + f.z := by cases hh : f.has1 <;> simp [Feed.held, hh, Nat.add_comm]
    simp only [hp, List.length_append, List.length_cons]
    omega

/-- Only a DEC_SYM that is fed emits on DO: the zeros held, `ZMAX` at most, and the symbol's six bits. -/
theorem Effect.dout_length_le {x : HostInput} {s t : State} (h : Effect x s t) (hz : s.dZ ≤ s.config.zmax) :
    t.dout.length ≤ s.dout.length + s.config.zmax + 6 := by
  cases h with
  | fed c v f _ _ _ hfeed =>
    rw [feedAll_ownBits] at hfeed
    have hout : f.out.length ≤ 0 + s.dZ + (ownBits s v).length := feedAll_out_length_le rfl hz hfeed
    have hown := ownBits_length_le s v
    rw [finishFeed_dout, List.length_append]
    omega
  | _ => simp [Nat.add_assoc]

/-- Settles O58: by the effect of the input on DO, with the bound on the zeros held from the invariant. -/
theorem burstBound : Obligations.BurstBound := by
  rintro s t ⟨-, -, ⟨-, -, hz, -⟩, -⟩ h
  obtain rfl | ⟨x, rest, -, he⟩ := step_effect h
  · exact Nat.le_add_right_of_le (Nat.le_add_right _ _)
  · exact he.dout_length_le hz

end Sys2Proof.Machine
end

section
/-! SUPPORT. Booting: the commands of `cs.load` leave the charset loaded (70_reset_and_hazards.md R117). -/

namespace Sys2Proof.Machine

open Assembler

/-- Since the state `s` the mask has been cleared and the symbols `ss` written from index 0 on, with both engines idle
and no error recorded (30_encoding.md R59). -/
structure Loading (s : State) (ss : List Nat) (t : State) : Prop where
  encoderIdle : t.eBusy = false
  decoderIdle : t.dState = .idle
  entries : t.cs.toList.take ss.length = ss.map (BitVec.ofNat 21)
  mask : ∀ k, t.csw.getLsbD k = decide (k < ss.length)
  errBits : t.errBits = s.errBits
  lastErr : t.lastErr = s.lastErr

/-- Taking an input from the queue changes nothing of the table. -/
theorem Loading.of_queue {s t : State} {ss : List Nat} (h : Loading s ss t) (q : List HostInput) :
    Loading s ss { t with hostIn := q } :=
  ⟨h.encoderIdle, h.decoderIdle, h.entries, h.mask, h.errBits, h.lastErr⟩

/-- CS_CLEAR begins the load: no entry is written (40_charset.md R65). -/
theorem loading_csClear {s : State} (hbusy : s.eBusy = false) (hidle : s.dState = .idle) :
    Loading s [] (afterCommand .csClear s) := by
  rw [afterCommand_csClear, unlessOpen_of_idle _ hbusy hidle]
  exact ⟨hbusy, hidle, rfl, fun k => by simp, rfl, rfl⟩

/-- CS_WRITE of the next index extends the load by its symbol (40_charset.md R66). -/
theorem Loading.csWrite {s t : State} {ss : List Nat} (h : Loading s ss t) (x : Nat) (hlen : ss.length < 64) :
    Loading s (ss ++ [x]) (afterCommand (.csWrite (BitVec.ofNat 6 ss.length) (BitVec.ofNat 21 x)) t) := by
  have hindex : (BitVec.ofNat 6 ss.length).toNat = ss.length := Nat.mod_eq_of_lt hlen
  rw [afterCommand_csWrite, unlessOpen_of_idle _ h.encoderIdle h.decoderIdle]
  refine ⟨h.encoderIdle, h.decoderIdle, ?_, fun k => ?_, h.errBits, h.lastErr⟩
  · have htable : ss.length < t.cs.toList.length := by simpa using hlen
    rw [writeEntry_cs, withEntry, Vector.toList_set, hindex, List.length_append, List.length_singleton,
      List.take_set, List.take_succ_eq_append_getElem htable, List.set_append_right _ _ (by simp), h.entries]
    simp
  · rw [writeEntry_csw_getLsbD, h.mask, hindex, ← Bool.decide_or, decide_eq_decide, List.length_append,
      List.length_singleton]
    omega

/-- A run over the remaining CS_WRITE commands of a load completes it. -/
theorem Loading.run {s t : State} {done todo : List Nat} {rest : List HostInput} (h : Loading s done t)
    (hlen : done.length + todo.length ≤ 64) (hq : t.hostIn = (loadFrom done.length todo).map present ++ rest) :
    ∃ u, Machine.run todo.length t = .next u ∧ u.hostIn = rest ∧ Loading s (done ++ todo) u := by
  induction todo generalizing t done with
  | nil => exact ⟨t, run_zero t, hq, (List.append_nil done).symm ▸ h⟩
  | cons x xs ih =>
    rw [List.length_cons] at hlen
    have hnext := (h.of_queue ((loadFrom (done.length + 1) xs).map present ++ rest)).csWrite x (by omega)
    rw [← afterInput_present] at hnext
    have hone : (done ++ [x]).length = done.length + 1 := List.length_append
    obtain ⟨u, hrun, hrest, hu⟩ := ih hnext (by omega) (hone ▸ afterInput_hostIn _ _)
    exact ⟨u, (run_input hq _).trans hrun, hrest, List.append_cons done x xs ▸ hu⟩

/-- Symbols in range are different as table entries (00_scope.md R10). -/
theorem nodup_map_ofNat {ss : List Nat} (hnodup : ss.Nodup) (hrange : ∀ x ∈ ss, x < 2 ^ 21) :
    (ss.map (BitVec.ofNat 21)).Nodup :=
  hnodup.map_on fun x hx y hy heq => by
    have hmod : x % 2 ^ 21 = y % 2 ^ 21 := congrArg BitVec.toNat heq
    rwa [Nat.mod_eq_of_lt (hrange x hx), Nat.mod_eq_of_lt (hrange y hy)] at hmod

/-- A load of 64 symbols has written the whole table and the whole mask. -/
theorem Loading.complete {s t : State} {ss : List Nat} (h : Loading s ss t) (hlen : ss.length = 64) :
    t.cs.toList = ss.map (BitVec.ofNat 21) ∧ t.csw = BitVec.allOnes 64 := by
  refine ⟨?_, BitVec.eq_of_getLsbD_eq fun k hk => ?_⟩
  · rw [← h.entries, hlen, List.take_of_length_le (by simp)]
  · rw [h.mask, hlen, BitVec.getLsbD_allOnes]

/-- Settles O23: CS_CLEAR begins the load and the 64 CS_WRITE commands complete it, with different entries. -/
theorem bootLoadsCharset : Obligations.BootLoadsCharset := by
  intro s ss rest hwf hnodup hbusy hidle hq
  obtain ⟨hlen, hrange⟩ := wellFormed_csLoad.mp hwf
  have hbegin := loading_csClear (s := { s with hostIn := (loadFrom 0 ss).map present ++ rest }) hbusy hidle
  rw [← afterInput_present] at hbegin
  obtain ⟨t, hrun, hrest, ht⟩ := hbegin.run (by simp [hlen]) (afterInput_hostIn _ _)
  rw [List.nil_append] at ht
  obtain ⟨htable, hmask⟩ := ht.complete hlen
  have hvalid : csValid t = true := (csValid_iff t).mpr ⟨hmask, htable ▸ nodup_map_ofNat hnodup hrange⟩
  rw [hlen] at hrun
  exact ⟨t, (run_input hq _).trans hrun, hvalid, htable, ht.errBits, ht.lastErr, hrest⟩

end Sys2Proof.Machine
end
